-- ==== Sys2Proof/Word.lean ====
section
/-! DEFINITION. The widths of the Granular voice block (00_scope.md R16): a word is 32 bits, a halfword
16, a byte 8. An `i16` is a halfword read with `BitVec.toInt`; `u8`, `u24`, `u32` are read with
`BitVec.toNat`. -/

namespace Sys2Proof

/-- A byte, `u8` (R16). -/
abbrev Byte := BitVec 8

/-- A halfword (R16); as an `i16` its value is its `toInt`. -/
abbrev Half := BitVec 16

/-- A 24-bit count of native samples, `u24` (R16). -/
abbrev Count := BitVec 24

/-- A word, `u32` (R16). -/
abbrev Word := BitVec 32

/-- A word address of the sample memory. Its width is the platform's, which the spec does not give, and
R24 lets a model take it as a natural number (log 14). -/
abbrev WordAddr := Nat

end Sys2Proof
end

