-- ==== Sys2Proof/Syntax.lean ====
section
/-! DEFINITION. The two-layer instruction set (00_scope.md R3): six decode operations and the catch-all for
unrecognised format codes, selected by a header word, and six host commands. One constructor of `Instr` per
row of spec/opcode_table.json. Also the formats (R10), the statuses (R78), and the form in which a request
reaches the block (30_encoding.md R70, R75). -/

namespace Sys2Proof

/-- The two encodings of a sample (R10, R71 field `enc`). -/
inductive Encoding where
  | ulaw
  | pcm16
  deriving DecidableEq, Repr

/-- The three native rates (R10, R71 field `rate_sel`). -/
inductive Rate where
  | r44100
  | r22050
  | r11025
  deriving DecidableEq, Repr

/-- The six recognised formats (R10, R71). -/
inductive Fmt where
  | ulaw44
  | pcm44
  | ulaw22
  | pcm22
  | ulaw11
  | pcm11
  deriving DecidableEq, Repr

/-- The status ASSIGN responds with (R78). -/
inductive Status where
  | ok
  | rejNull
  | rejBusy
  | rejLen
  deriving DecidableEq, Repr

/-- The operands of one decode operation (R109): the payload word and the prior sample, handed over by a
voice (R119: "the caller hands it the word"). That they stand beside the header word is the model's form
(DESIGN CHOICE, log 5). -/
structure DecodeOperands where
  voice : Nat
  word  : Word
  prior : Half
  deriving DecidableEq, Repr

/-- The instruction set: one constructor per row of spec/opcode_table.json. `count` is the header's
`sample_count`. -/
inductive Instr where
  /-- DEC_ULAW44, format code 0x01 (R110). -/
  | decUlaw44 (count : Count) (d : DecodeOperands)
  /-- DEC_PCM44, format code 0x81 (R111). -/
  | decPcm44 (count : Count) (d : DecodeOperands)
  /-- DEC_ULAW22, format code 0x02 (R112). -/
  | decUlaw22 (count : Count) (d : DecodeOperands)
  /-- DEC_PCM22, format code 0x82 (R113). -/
  | decPcm22 (count : Count) (d : DecodeOperands)
  /-- DEC_ULAW11, format code 0x03 (R114). -/
  | decUlaw11 (count : Count) (d : DecodeOperands)
  /-- DEC_PCM11, format code 0x83 (R115). -/
  | decPcm11 (count : Count) (d : DecodeOperands)
  /-- DEC_UNRECOGNISED, any other format code (R74, R161). -/
  | decUnrecognised (code : Byte) (count : Count) (d : DecodeOperands)
  /-- ASSIGN (R131, R132); `sample` is a word address or null. -/
  | assign (voice : Nat) (sample : Option WordAddr) (startMs lengthMs : Word)
  /-- PRODUCE (R133). -/
  | produce (voice : Nat)
  /-- QUERY_POS (R136). -/
  | queryPos (voice : Nat)
  /-- QUERY_LEN (R137). -/
  | queryLen (voice : Nat)
  /-- IS_PLAYING (R138). -/
  | isPlaying (voice : Nat)
  /-- IS_BUSY (R139). -/
  | isBusy (voice : Nat)
  deriving DecidableEq, Repr

/-- Which of the two encodings of R3 a request uses: a header word (format HDR, R70) or a command
(format CMD, R75). -/
inductive Layer where
  | header
  | command
  deriving DecidableEq, Repr

/-- A request as it reaches the block: the encoded bits as bytes, lowest address first (a header word is four
little-endian bytes, R52; a command is its 3-bit `op` in one byte, upper bits zero), and the operands
beside them, "not packed into a word" (R75). Lines an instruction has no use for are not looked at.
DESIGN CHOICE, log 4. -/
structure Request where
  layer    : Layer
  code     : List Byte
  voice    : Nat
  sample   : Option WordAddr
  startMs  : Word
  lengthMs : Word
  word     : Word
  prior    : Half
  deriving DecidableEq, Repr

/-- Why a request is no instruction. -/
inductive DecodeError where
  /-- The bytes are not as many as the layer's encoding has (R80: every length is fixed). -/
  | badLength (layer : Layer) (bytes : Nat)
  /-- `op` 0 or 7: no command (R76). -/
  | noSuchCommand (op : BitVec 3)
  /-- The byte that carries `op` has a bit set above the three of R75. -/
  | badOpByte (byte : Byte)
  deriving DecidableEq, Repr

end Sys2Proof
end

