-- ==== Sys2Proof/Config.lean ====
section
/-! DEFINITION. What an implementation fixes (00_scope.md R8 to R15; the table of named parameters at the end of
92_eei_decisions.md) and the free values. `Config` is plain data and stands in the state, so that every
statement over states holds for every configuration; the constants without a body are what nobody can know
of the device (log 8, 10). -/

namespace Sys2Proof

/-- One conversion constant per native rate (R11). -/
structure RateConsts where
  k44100 : Nat
  k22050 : Nat
  k11025 : Nat
  deriving DecidableEq, Repr

/-- The named parameters of the block. N_VOICES (R9) is the length of the state's list of voices, and
MEM_WORDS (R15) is read off the memory. -/
structure Config where
  /-- FRAME (R8): output samples per frame. -/
  frame      : Nat
  /-- FADE_TABLE (R12, R33): 257 entries of i16 (FT_LEN of R92 holds by its type). -/
  fadeTable  : Vector Half 257
  /-- ULAW_TABLE (R13, R34): 256 entries of i16, indexed by the byte. -/
  ulawTable  : Vector Half 256
  /-- K_M2S (R11): milliseconds to native samples. -/
  kM2S       : RateConsts
  /-- K_S2M (R11): native samples to milliseconds. -/
  kS2M       : RateConsts
  /-- ENV_SHIFT (R14). -/
  envShift   : Nat
  /-- FULL_SCALE (R14): read by the named properties of R92 only. -/
  fullScale  : Half
  deriving DecidableEq, Repr

/-- R8: `FRAME mod 16 = 0` and `FRAME >= 16`. -/
abbrev Config.wf (c : Config) : Prop := 16 ≤ c.frame ∧ c.frame % 16 = 0

/-! ### The named properties of the fade table (40_fade_table.md R92) -/

/-- FT_RANGE. -/
abbrev Config.FtRange (c : Config) : Prop :=
  ∀ i : Fin 257, 0 ≤ c.fadeTable[i].toInt ∧ c.fadeTable[i].toInt ≤ c.fullScale.toInt

/-- FT_ENDS. -/
abbrev Config.FtEnds (c : Config) : Prop :=
  c.fadeTable[0].toInt = 0 ∧ c.fadeTable[256].toInt = 0

/-- FT_SYM. -/
abbrev Config.FtSym (c : Config) : Prop := ∀ i : Fin 257, c.fadeTable[i] = c.fadeTable[i.rev]

/-- FT_RISE. -/
abbrev Config.FtRise (c : Config) : Prop :=
  ∀ i : Fin 256, i.val < 128 → c.fadeTable[i.castSucc].toInt ≤ c.fadeTable[i.succ].toInt

/-- FT_PLATEAU at a given PLATEAU_LO. -/
abbrev Config.FtPlateau (c : Config) (lo : Nat) : Prop :=
  ∀ i : Fin 257, lo ≤ i.val → i.val ≤ 256 - lo → c.fadeTable[i] = c.fullScale

/-! ### Values nothing in the spec fixes: no body, so no proof can use one -/

/-- FRAME of the device is `16 * (this + 1)` (R8: OPEN, a positive multiple of 16; log 10). -/
opaque Config.deviceFrameUnitsLessOne : Nat

/-- N_VOICES of the device is `this + 1` (R9: OPEN, at least 1; log 10). -/
opaque Config.deviceVoicesLessOne : Nat

/-- FADE_TABLE of the device (R12: OPEN; log 10). -/
opaque Config.deviceFadeTable : Vector Half 257

/-- ULAW_TABLE of the device (R13: OPEN; log 10). -/
opaque Config.deviceUlawTable : Vector Half 256

/-- The free value number `draw` of a voice: what a register holds where the spec calls its value unspecified
and the machine goes on (R132, R180; log 8). -/
opaque Config.freeValue (voice draw : Nat) : Word

/-- The free choice, the `turn`-th time more than one request is outstanding, of which is served (R60: "executed in
some order, which the spec does not fix"; log 2). -/
opaque Config.orderDraw (turn : Nat) : Nat

end Sys2Proof
end

