-- ==== Sys2Proof/Machine/Formats.lean ====
section
/-! DEFINITION. The format codes (30_encoding.md R71, R74) and the attributes each recognised format has
(00_scope.md R10, R11). -/

namespace Sys2Proof.Machine

/-- R71: the six values, matched on the whole byte; R74: every other value is unrecognised. -/
def formatOf (code : Byte) : Option Fmt :=
  if code = 0x01#8 then some .ulaw44
  else if code = 0x81#8 then some .pcm44
  else if code = 0x02#8 then some .ulaw22
  else if code = 0x82#8 then some .pcm22
  else if code = 0x03#8 then some .ulaw11
  else if code = 0x83#8 then some .pcm11
  else none

/-- R71: the code of a format. -/
def formatCode : Fmt → Byte
  | .ulaw44 => 0x01#8
  | .pcm44 => 0x81#8
  | .ulaw22 => 0x02#8
  | .pcm22 => 0x82#8
  | .ulaw11 => 0x03#8
  | .pcm11 => 0x83#8

/-- R10, column Encoding. -/
def encodingOf : Fmt → Encoding
  | .ulaw44 => .ulaw
  | .pcm44 => .pcm16
  | .ulaw22 => .ulaw
  | .pcm22 => .pcm16
  | .ulaw11 => .ulaw
  | .pcm11 => .pcm16

/-- R10, column RATE. -/
def rateOf : Fmt → Rate
  | .ulaw44 => .r44100
  | .pcm44 => .r44100
  | .ulaw22 => .r22050
  | .pcm22 => .r22050
  | .ulaw11 => .r11025
  | .pcm11 => .r11025

/-- R10: RATIO, output samples per native sample, by the rate. -/
def ratioOfRate : Rate → Nat
  | .r44100 => 1
  | .r22050 => 2
  | .r11025 => 4

/-- R10, column RATIO. -/
def ratio (f : Fmt) : Nat := ratioOfRate (rateOf f)

/-- R10: native samples per 32-bit word, by the encoding ("either 4 u-law bytes or 2 PCM samples"). -/
def lanesOf : Encoding → Nat
  | .ulaw => 4
  | .pcm16 => 2

/-- R10, column SPW: native samples per input word. -/
def spw (f : Fmt) : Nat := lanesOf (encodingOf f)

/-- R10, column OPW: output samples per input word, `SPW * RATIO`. -/
def opw (f : Fmt) : Nat := spw f * ratio f

/-- R11: the constant of a rate. -/
def constOf (k : RateConsts) : Rate → Nat
  | .r44100 => k.k44100
  | .r22050 => k.k22050
  | .r11025 => k.k11025

/-- R78: the 2-bit code of a status. -/
def statusCode : Status → BitVec 2
  | .ok => 0#2
  | .rejNull => 1#2
  | .rejBusy => 2#2
  | .rejLen => 3#2

/-- R133: `c = FRAME div RATIO(f)`, native samples consumed per frame. -/
def nativesPerFrame (cfg : Config) (f : Fmt) : Nat := cfg.frame / ratio f

/-- R133, R143: `FRAME div OPW(f)`, payload words read per frame. -/
def wordsPerFrame (cfg : Config) (f : Fmt) : Nat := cfg.frame / opw f

end Sys2Proof.Machine
end

