-- ==== Sys2Proof/WellFormed.lean ====
section
/-! DEFINITION. The checks an instruction meets before it means anything: its voice exists (60_exceptions.md R176,
93_implementation_defined.md U15), and DEC_UNRECOGNISED carries a code that is none of the six
(30_encoding.md R74). -/

namespace Sys2Proof

/-- The voice an instruction is routed to (R75: "routing, not part of the operation"). -/
def Instr.voice : Instr → Nat
  | .decUlaw44 _ d => d.voice
  | .decPcm44 _ d => d.voice
  | .decUlaw22 _ d => d.voice
  | .decPcm22 _ d => d.voice
  | .decUlaw11 _ d => d.voice
  | .decPcm11 _ d => d.voice
  | .decUnrecognised _ _ d => d.voice
  | .assign v _ _ _ => v
  | .produce v => v
  | .queryPos v => v
  | .queryLen v => v
  | .isPlaying v => v
  | .isBusy v => v

/-- The instruction's voice is one of the `nVoices` (U15). -/
abbrev Instr.voiceExists (nVoices : Nat) (i : Instr) : Bool := decide (i.voice < nVoices)

/-- A catch-all row carries none of the six recognised codes (R74: lowest priority); the other rows have no
operand value that is not allowed (R72, R73, R75, R77). -/
def Instr.codeFits : Instr → Bool
  | .decUnrecognised c _ _ => (Machine.formatOf c).isNone
  | .decUlaw44 _ _ => true
  | .decPcm44 _ _ => true
  | .decUlaw22 _ _ => true
  | .decPcm22 _ _ => true
  | .decUlaw11 _ _ => true
  | .decPcm11 _ _ => true
  | .assign _ _ _ _ => true
  | .produce _ => true
  | .queryPos _ => true
  | .queryLen _ => true
  | .isPlaying _ => true
  | .isBusy _ => true

/-- Well-formedness: both checks. -/
def Instr.wellFormed (nVoices : Nat) (i : Instr) : Bool := i.voiceExists nVoices && i.codeFits

end Sys2Proof
end

