-- ==== Sys2Proof/Decode.lean ====
section
/-! DEFINITION. Decoding (30_encoding.md R70, R71, R74 to R76, R80): total on any request, refusing by name;
then the encoder, written from the same tables. `decodeTableWord` lays a word of spec/opcode_table.json out
as the hardware stores it and gives it to the decoder. -/

namespace Sys2Proof

/-! ### Header words -/

/-- R70: `format_code = w[31:24]`. -/
def headerCode (w : Word) : Byte := w.extractLsb' 24 8

/-- R70: `sample_count = w[23:0]`. -/
def headerCount (w : Word) : Count := w.extractLsb' 0 24

/-- R70: the header word of a format code and a sample count. -/
def headerWord (code : Byte) (count : Count) : Word := code ++ count

/-- R52: the four bytes of a word, least significant first. -/
def bytesOfWord (w : Word) : List Byte :=
  [w.extractLsb' 0 8, w.extractLsb' 8 8, w.extractLsb' 16 8, w.extractLsb' 24 8]

/-- R52: the word whose byte at the lowest address is `b0`. -/
def wordOfBytes (b0 b1 b2 b3 : Byte) : Word := b3 ++ b2 ++ b1 ++ b0

/-- A header word's instruction, R71 and R74: the six rows first, the catch-all last. -/
def decodeHeader (w : Word) (d : DecodeOperands) : Instr :=
  match Machine.formatOf (headerCode w) with
  | some .ulaw44 => .decUlaw44 (headerCount w) d
  | some .pcm44 => .decPcm44 (headerCount w) d
  | some .ulaw22 => .decUlaw22 (headerCount w) d
  | some .pcm22 => .decPcm22 (headerCount w) d
  | some .ulaw11 => .decUlaw11 (headerCount w) d
  | some .pcm11 => .decPcm11 (headerCount w) d
  | none => .decUnrecognised (headerCode w) (headerCount w) d

/-! ### Commands -/

/-- A command's instruction by its `op` (R75); 0 and 7 name none (R76). -/
def decodeCommand (op : BitVec 3) (r : Request) : Except DecodeError Instr :=
  if op = 1#3 then .ok (.assign r.voice r.sample r.startMs r.lengthMs)
  else if op = 2#3 then .ok (.produce r.voice)
  else if op = 3#3 then .ok (.queryPos r.voice)
  else if op = 4#3 then .ok (.queryLen r.voice)
  else if op = 5#3 then .ok (.isPlaying r.voice)
  else if op = 6#3 then .ok (.isBusy r.voice)
  else .error (.noSuchCommand op)

/-- The decoder (R80), total on any request. -/
def decode (r : Request) : Except DecodeError Instr :=
  match r.layer, r.code with
  | .header, [b0, b1, b2, b3] => .ok (decodeHeader (wordOfBytes b0 b1 b2 b3) ⟨r.voice, r.word, r.prior⟩)
  | .header, bytes => .error (.badLength .header bytes.length)
  | .command, [b] =>
    if b.extractLsb' 3 5 = 0#5 then decodeCommand (b.extractLsb' 0 3) r else .error (.badOpByte b)
  | .command, bytes => .error (.badLength .command bytes.length)

/-! ### The encoder -/

/-- The header-layer request of a format code, a count and the operands beside them. -/
def headerRequest (code : Byte) (count : Count) (d : DecodeOperands) : Request :=
  { layer := .header, code := bytesOfWord (headerWord code count), voice := d.voice, sample := none,
    startMs := 0#32, lengthMs := 0#32, word := d.word, prior := d.prior }

/-- The command-layer request of an `op` for a voice, with ASSIGN's operands beside it. -/
def commandRequest (op : BitVec 3) (voice : Nat) (sample : Option WordAddr) (startMs lengthMs : Word) : Request :=
  { layer := .command, code := [op.setWidth 8], voice := voice, sample := sample,
    startMs := startMs, lengthMs := lengthMs, word := 0#32, prior := 0#16 }

/-- The request that encodes an instruction (R70, R71, R75). -/
def encode : Instr → Request
  | .decUlaw44 n d => headerRequest (Machine.formatCode .ulaw44) n d
  | .decPcm44 n d => headerRequest (Machine.formatCode .pcm44) n d
  | .decUlaw22 n d => headerRequest (Machine.formatCode .ulaw22) n d
  | .decPcm22 n d => headerRequest (Machine.formatCode .pcm22) n d
  | .decUlaw11 n d => headerRequest (Machine.formatCode .ulaw11) n d
  | .decPcm11 n d => headerRequest (Machine.formatCode .pcm11) n d
  | .decUnrecognised c n d => headerRequest c n d
  | .assign v sample startMs lengthMs => commandRequest 1#3 v sample startMs lengthMs
  | .produce v => commandRequest 2#3 v none 0#32 0#32
  | .queryPos v => commandRequest 3#3 v none 0#32 0#32
  | .queryLen v => commandRequest 4#3 v none 0#32 0#32
  | .isPlaying v => commandRequest 5#3 v none 0#32 0#32
  | .isBusy v => commandRequest 6#3 v none 0#32 0#32

/-! ### Words of the opcode table -/

/-- `k` bytes of a number, least significant first. -/
def bytesOfNat : Nat → Nat → List Byte
  | 0, _ => []
  | k + 1, w => BitVec.ofNat 8 w :: bytesOfNat k (w / 256)

/-- The request that carries a word of spec/opcode_table.json: rows of at most eight bits are commands (format
CMD), longer ones header words (format HDR). Every operand line is zero (null for the sample, voice 0). -/
def tableRequest (nbits w : Nat) : Request :=
  { layer := if nbits ≤ 8 then .command else .header
    code := bytesOfNat ((nbits + 7) / 8) w
    voice := 0, sample := none, startMs := 0#32, lengthMs := 0#32, word := 0#32, prior := 0#16 }

/-- The instruction the decoder reads from a word of spec/opcode_table.json. -/
def decodeTableWord (nbits w : Nat) : Option Instr :=
  match decode (tableRequest nbits w) with
  | .ok i => some i
  | .error _ => none

end Sys2Proof
end

