-- ==== Sys2Proof/Machine/Arith.lean ====
section
/-! DEFINITION. The arithmetic primitives of 00_scope.md R17, on exact integers (R16). -/

namespace Sys2Proof.Machine

/-- R17: `a >> n`, arithmetic right shift of an integer, `floor(a / 2^n)`. -/
def asr (a : Int) (n : Nat) : Int := a / 2 ^ n

/-- R17: `trunc_16(v)`, the low 16 bits as an i16. -/
def trunc16 (v : Int) : Half := BitVec.ofInt 16 v

/-- R17: `satadd32(a, b) = min(a + b, 0xFFFFFFFF)`. -/
def satAdd32 (a b : Word) : Word := BitVec.ofNat 32 (min (a.toNat + b.toNat) 0xFFFFFFFF)

/-- R11: `(value * K) >> 32` on naturals, the product exact (R77). -/
def scale32 (value k : Nat) : Nat := value * k / 2 ^ 32

end Sys2Proof.Machine
end

