-- ==== Sys2Proof/Machine/Params.lean ====
section
/-! DEFINITION. The configuration of the device: the spec's defaults where it gives them (00_scope.md R11, R14),
constants without a body where it leaves the parameter OPEN (R8, R9, R12, R13; log 10). -/

namespace Sys2Proof.Machine

/-- R11: K_M2S(r) = floor(2^32 * r / 1000). -/
def defaultM2S : RateConsts := { k44100 := 189408057753, k22050 := 94704028876, k11025 := 47352014438 }

/-- R11: K_S2M(r) = floor(2^32 * 1000 / r). -/
def defaultS2M : RateConsts := { k44100 := 97391548, k22050 := 194783097, k11025 := 389566194 }

/-- The configuration of the device (R182, item 1): fixed before the first ASSIGN, never changed (R181). -/
def deviceConfig : Config :=
  { frame := 16 * (Config.deviceFrameUnitsLessOne + 1)
    fadeTable := Config.deviceFadeTable
    ulawTable := Config.deviceUlawTable
    kM2S := defaultM2S
    kS2M := defaultS2M
    envShift := 15
    fullScale := 32767#16 }

end Sys2Proof.Machine
end

