-- ==== Sys2Proof/Machine/State.lean ====
section
/-! DEFINITION. The state as plain data: the twelve registers of a voice (10_state.md R20), what the voice shows
to the outside, the sample memory, the configuration, and the requests outstanding; the reasons a step can
stop; the state after reset (R39, R180). -/

namespace Sys2Proof.Machine

/-- The twelve registers of one voice (R20). -/
structure VoiceRegs where
  /-- R21: Playing (true) or Idle. -/
  playing   : Bool
  /-- R22. -/
  busy      : Bool
  /-- R23: the format code latched by ASSIGN, any of the 256 values. -/
  fmt       : Byte
  /-- R24: word address of the assigned sample's header. -/
  base      : WordAddr
  /-- R25: the header's sample count. -/
  fileLen   : Count
  /-- R26: word offset from `base` of the grain's first payload word. -/
  segStartW : Word
  /-- R27: word offset from `base` of the next payload word; held as a natural number, as R27 allows (log 14). -/
  cursor    : Nat
  /-- R28: remaining segment length in native samples. -/
  segLen    : Count
  /-- R29: segment length as ASSIGN computed it. -/
  segTotal  : Count
  /-- R30: last native sample decoded. -/
  prior     : Half
  /-- R31: phase of the next output sample. -/
  fadePos   : Word
  /-- R32: phase step per output sample. -/
  fadeRate  : Word
  deriving DecidableEq, Repr

/-- What a request answers: the value `Respond` hands to the issuer (R18, R78, R79). -/
inductive Response where
  /-- ASSIGN: a status (R78). -/
  | status (st : Status)
  /-- PRODUCE of an Idle voice, or a decode fault: `none` (R65, R133). -/
  | none
  /-- PRODUCE: the frame (R79). -/
  | frame (samples : List Half)
  /-- QUERY_POS, QUERY_LEN: milliseconds, u32 (R78). -/
  | millis (ms : Word)
  /-- IS_PLAYING, IS_BUSY: one bit (R78). -/
  | bit (b : Bool)
  /-- A decode operation: the outputs and the new prior, `(outs, p')` (R109; log 5). -/
  | decoded (outs : List Half) (prior : Half)
  deriving DecidableEq, Repr

/-- The local fault of the hardware (R161, R164 code 1), as the model's log keeps it. -/
inductive LocalFault where
  | decodeFault (code : Byte)
  deriving DecidableEq, Repr

/-- What one voice has shown to the outside: ghost history, newest first, never cleared (R65, R177; log 17).
No rule of the block reads it. -/
structure Port where
  responses : List Response
  emitted   : List (List Half)
  faults    : List LocalFault
  /-- The MODEL's own field: how many free values this voice has taken (log 8). -/
  draws     : Nat
  deriving DecidableEq, Repr

/-- One voice: its registers and its port. -/
structure Voice where
  regs : VoiceRegs
  port : Port
  deriving DecidableEq, Repr

/-- The whole machine. -/
structure State where
  /-- The named parameters (R8 to R14), constants of the run (R35, R181). -/
  cfg        : Config
  /-- The sample memory (R50 to R55): byte address 4a+k is bits 8k+7..8k of word a (R52). -/
  mem        : List Host.Cell
  /-- The N_VOICES voices (R9, R176). -/
  voices     : List Voice
  /-- What the control path has outstanding, as issued; served in any order (R7, R60; log 2). -/
  control    : List Request
  /-- What the production path has outstanding, as issued; served in any order (R7, R60; log 2). -/
  production : List Request
  /-- The reset event of R180 is asked for (log 9). -/
  resetLine  : Bool
  /-- The MODEL's own field: how many times one of several outstanding requests was drawn (log 2). -/
  turns      : Nat
  deriving DecidableEq, Repr

/-- What ends a run. -/
inductive Fault where
  /-- `MemFault(a)` (R163, R164 code 2): word address `a` does not exist. Raised by ASSIGN's header read and
  PRODUCE's payload reads. SAFE: the model stops where a chip would go on with whatever the bus returns. -/
  | memFault (addr : WordAddr)
  deriving DecidableEq, Repr

/-- What the block has no step for. -/
inductive Refusal where
  /-- An arm of exec whose instruction has no meaning yet. SAFE. -/
  | notModelled (mnemonic : String)
  /-- `op` 0 or 7 names no command (R76, U15). Raised by step. SAFE. -/
  | noSuchCommand (op : BitVec 3)
  /-- The bytes of a request are no header word and no `op` (R80; log 4). Raised by step. SAFE. -/
  | noSuchEncoding
  /-- The request names a voice not below N_VOICES (U15). Raised by every instruction. SAFE. -/
  | noSuchVoice (voice : Nat)
  deriving DecidableEq, Repr

/-- A voice's registers after reset: `playing` and `busy` are 0 (R39); the other ten are unspecified there and
hold the value 0 here (DESIGN CHOICE, UNSAFE, log 7). -/
def VoiceRegs.reset : VoiceRegs :=
  { playing := false, busy := false, fmt := 0#8, base := 0, fileLen := 0#24, segStartW := 0#32, cursor := 0,
    segLen := 0#24, segTotal := 0#24, prior := 0#16, fadePos := 0#32, fadeRate := 0#32 }

/-- A voice after reset: nothing answered, nothing emitted, nothing logged (R180). -/
def Voice.reset : Voice :=
  { regs := VoiceRegs.reset, port := { responses := [], emitted := [], faults := [], draws := 0 } }

/-- The machine right after reset (R39, R180, R181): every voice Idle, the device's configuration, no sample
memory listed (R39: "not part of the block"), no request outstanding: "the block then waits for commands". -/
def State.reset : State :=
  { cfg := deviceConfig
    mem := []
    voices := List.replicate (Config.deviceVoicesLessOne + 1) Voice.reset
    control := [], production := [], resetLine := false, turns := 0 }

end Sys2Proof.Machine
end

