-- ==== Sys2Proof/Machine/Flags.lean ====
section
/-! DEFINITION. The two flags of a voice, `playing` and `busy` (10_state.md R21, R22). The block has no condition
codes. Every rule that writes one flag writes the other to the same value. -/

namespace Sys2Proof.Machine

/-- R131 step 4: "Mark voice Playing and busy". -/
def setFlags (x : VoiceRegs) : VoiceRegs := { x with playing := true, busy := true }

/-- R135, R161: "transition to Idle and clear busy". -/
def clearFlags (x : VoiceRegs) : VoiceRegs := { x with playing := false, busy := false }

/-- Exhaustion (R135), after a frame of format `f`: with `c` native samples consumed, the grain is over if
`c >= seg_len`, and `seg_len` keeps its value; otherwise `c` is subtracted. -/
def endOfFrame (cfg : Config) (f : Fmt) (x : VoiceRegs) : VoiceRegs :=
  if x.segLen.toNat ≤ nativesPerFrame cfg f then clearFlags x
  else { x with segLen := BitVec.ofNat 24 (x.segLen.toNat - nativesPerFrame cfg f) }

end Sys2Proof.Machine
end

