-- ==== Sys2Proof/Machine/Ops.lean ====
section
/-! DEFINITION. The named operations over memory and voices: the sample memory and its one access (20_memory.md R51
to R58), a voice's port (R18, R65), taking a decode fault (60_exceptions.md R161, R167), free values (log 8),
the reset event (R180), routing a request to its voice (R176), issuing a request (R7). There is no return from
a fault: R168, "no return instruction and nothing to restore". -/

namespace Sys2Proof.Machine

/-! ### The sample memory -/

/-- The byte at a byte address; none where the memory lists none (log 12). -/
def byteAt : List Host.Cell → Nat → Option Byte
  | [], _ => none
  | (k, b) :: rest, a => if k = a then some b else byteAt rest a

/-- The 32-bit word at a word address, little-endian (R52); none where one of its bytes does not exist. -/
def wordAt (m : List Host.Cell) (a : WordAddr) : Option Word :=
  match byteAt m (4 * a), byteAt m (4 * a + 1), byteAt m (4 * a + 2), byteAt m (4 * a + 3) with
  | some b0, some b1, some b2, some b3 => some (b3 ++ b2 ++ b1 ++ b0)
  | _, _, _, _ => none

/-- `n <= MEM_WORDS(base)` (R15): the words at offsets 0 to n - 1 from `base` exist. -/
def hasWords (m : List Host.Cell) (base : WordAddr) : Nat → Bool
  | 0 => true
  | n + 1 => hasWords m base n && (wordAt m (base + n)).isSome

/-- `MemRead(base + off, 4)` (R55, R56): MemFault unless `off < MEM_WORDS(base)` (R57, R163). -/
def memRead (m : List Host.Cell) (base : WordAddr) (off : Nat) : Except Fault Word :=
  match hasWords m base off, wordAt m (base + off) with
  | true, some w => .ok w
  | _, _ => .error (.memFault (base + off))

/-- The canonical form of a memory: byte addresses strictly rise. (No entry can equal what an unlisted address
reads as, since that is no value.) -/
def Memory.wf : List Host.Cell → Bool
  | [] => true
  | [_] => true
  | (a, _) :: (b, y) :: rest => decide (a < b) && Memory.wf ((b, y) :: rest)

/-- The platform's write of one byte (R182, item 2), keeping the canonical form. No instruction uses it: the
block never writes memory (R55). -/
def writeByte : List Host.Cell → Nat → Byte → List Host.Cell
  | [], a, b => [(a, b)]
  | (k, x) :: rest, a, b =>
    if a < k then (a, b) :: (k, x) :: rest
    else if a = k then (a, b) :: rest
    else (k, x) :: writeByte rest a b

/-- R18 `MemWrite(a, 4, w)`: the platform's write of one word, little-endian (R52). -/
def writeWord (m : List Host.Cell) (a : WordAddr) (w : Word) : List Host.Cell :=
  writeByte (writeByte (writeByte (writeByte m (4 * a) (w.extractLsb' 0 8)) (4 * a + 1) (w.extractLsb' 8 8))
    (4 * a + 2) (w.extractLsb' 16 8)) (4 * a + 3) (w.extractLsb' 24 8)

/-- R182, item 2: the platform places words in the sample memory from a word address on. -/
def placeWords (m : List Host.Cell) (a : WordAddr) : List Word → List Host.Cell
  | [] => m
  | w :: rest => placeWords (writeWord m a w) (a + 1) rest

/-! ### A voice's registers and port -/

/-- The voice with other registers. -/
def Voice.withRegs (x : Voice) (r : VoiceRegs) : Voice := { x with regs := r }

/-- `Respond(v)` (R18). -/
def Voice.respond (x : Voice) (a : Response) : Voice :=
  { x with port := { x.port with responses := a :: x.port.responses } }

/-- `Emit(frame)` (R65): the port always accepts. -/
def Voice.emit (x : Voice) (frame : List Half) : Voice :=
  { x with port := { x.port with emitted := frame :: x.port.emitted } }

/-- The model's fault log gains an entry (R177). -/
def Voice.logFault (x : Voice) (e : LocalFault) : Voice :=
  { x with port := { x.port with faults := e :: x.port.faults } }

/-- `n` free values are taken (log 8). -/
def Voice.drawn (x : Voice) (n : Nat) : Voice := { x with port := { x.port with draws := x.port.draws + n } }

/-- Taking a decode fault (R161, R167): `playing` and `busy` are cleared, the response is `none`, the log gains
the code; every other register keeps its value, no memory is read, no frame is emitted. -/
def takeDecodeFault (code : Byte) (x : Voice) : Voice :=
  ((x.withRegs (clearFlags x.regs)).logFault (.decodeFault code)).respond .none

/-- R164: the cause code of the local fault. -/
def localCause : LocalFault → Nat
  | .decodeFault _ => 1

/-- R164: the cause code of the fault that ends a run. -/
def faultCause : Fault → Nat
  | .memFault _ => 2

/-- The reset of one voice (R180): the flags are cleared, the ten other registers hold free values (log 9); the
event emits nothing and answers nothing. `v` is the voice's index. -/
def resetVoice (v : Nat) (x : Voice) : Voice :=
  let free := fun k => Config.freeValue v (x.port.draws + k)
  Voice.drawn
    { x with
      regs :=
        { playing := false, busy := false, fmt := (free 0).setWidth 8, base := (free 1).toNat,
          fileLen := (free 2).setWidth 24, segStartW := free 3, cursor := (free 4).toNat,
          segLen := (free 5).setWidth 24, segTotal := (free 6).setWidth 24, prior := (free 7).setWidth 16,
          fadePos := free 8, fadeRate := free 9 } }
    10

/-- The reset of the voices from index `v` on. -/
def resetVoices : Nat → List Voice → List Voice
  | _, [] => []
  | v, x :: rest => resetVoice v x :: resetVoices (v + 1) rest

/-- The reset event (R180, R181): all voices at once; configuration, tables, sample memory and what the host has
outstanding are not touched. -/
def applyReset (s : State) : State := { s with voices := resetVoices 0 s.voices, resetLine := false }

/-! ### The machine -/

/-- The state with another voice number `v`. -/
def State.setVoice (s : State) (v : Nat) (x : Voice) : State := { s with voices := s.voices.set v x }

/-- A request is carried out by the voice it names, and by no other (R176); a voice that does not exist is
refused (U15). -/
def onVoice (v : Nat) (s : State) (act : Voice → Except Fault Voice) : Host.Outcome State Fault Refusal :=
  match s.voices[v]? with
  | none => .refused (.noSuchVoice v)
  | some x =>
    match act x with
    | .ok x' => .next (s.setVoice v x')
    | .error e => .fault e

/-- The control path issues a request (R7). -/
def State.issueControl (s : State) (r : Request) : State := { s with control := s.control ++ [r] }

/-- The production path issues a request (R7). -/
def State.issueProduction (s : State) (r : Request) : State := { s with production := s.production ++ [r] }

/-- Reset is asked for (R180): the next step is the reset event (log 9). -/
def State.askReset (s : State) : State := { s with resetLine := true }

/-- Everything outstanding: the control path's requests, then the production path's. -/
def State.outstanding (s : State) : List Request := s.control ++ s.production

/-- Which outstanding request is served next: the only one, or any one of several, whichever path issued it and
whenever (R60, R166: two commands outstanding together are "taken in either order"; log 2). -/
def servedIndex (s : State) : Nat :=
  if s.outstanding.length ≤ 1 then 0 else Config.orderDraw s.turns % s.outstanding.length

/-- The state without its outstanding request number `k`; a choice among several counts as a turn. -/
def State.withoutRequest (s : State) (k : Nat) : State :=
  { s with
    control := s.control.eraseIdx k
    production := if k < s.control.length then s.production else s.production.eraseIdx (k - s.control.length)
    turns := if s.outstanding.length ≤ 1 then s.turns else s.turns + 1 }

/-- The request served next, and the state without it; none where nothing is outstanding. -/
def nextRequest (s : State) : Option (Request × State) :=
  (s.outstanding[servedIndex s]?).map fun r => (r, s.withoutRequest (servedIndex s))

/-- How a request that is no instruction is refused (R76, R80). -/
def refusalOf : DecodeError → Refusal
  | .badLength _ _ => .noSuchEncoding
  | .noSuchCommand op => .noSuchCommand op
  | .badOpByte _ => .noSuchEncoding

end Sys2Proof.Machine
end

