-- ==== Sys2Proof/Machine/Operands.lean ====
section
/-! DEFINITION. Every operand form: milliseconds to native samples and back (30_encoding.md R77), the clamp of a
segment (42_voice_player.md R131), the native samples of a payload word (41_format_decoder.md R105 to R107),
the interpolation of one native sample (R108). -/

namespace Sys2Proof.Machine

/-- R77: `ms_to_native(f, t) = (t * K_M2S(f)) >> 32`. -/
def msToNative (cfg : Config) (f : Fmt) (t : Word) : Nat := scale32 t.toNat (constOf cfg.kM2S (rateOf f))

/-- R77: `native_to_ms(f, n) = (n * K_S2M(f)) >> 32` as a u32 response; `n` is an exact integer (R16). With the
constants of R11 the result fits 32 bits in every reachable state (log 15). -/
def nativeToMs (cfg : Config) (f : Fmt) (n : Int) : Word :=
  BitVec.ofInt 32 (asr (n * (constOf cfg.kS2M (rateOf f) : Int)) 32)

/-- R131 step 2: `start = min((start_ms * K_M2S(f)) >> 32, flen)`. -/
def segmentStart (cfg : Config) (f : Fmt) (fileLen : Count) (startMs : Word) : Nat :=
  min (msToNative cfg f startMs) fileLen.toNat

/-- R131 step 2: the length, cut so that `start + len <= flen`. -/
def segmentLen (cfg : Config) (f : Fmt) (fileLen : Count) (startMs lengthMs : Word) : Nat :=
  let start := segmentStart cfg f fileLen startMs
  let len := msToNative cfg f lengthMs
  if start + len > fileLen.toNat then fileLen.toNat - start else len

/-- R105: ULAW_EXPAND(b). -/
def ulawExpand (u : Vector Half 256) (b : Byte) : Half := u[b.toNat]'b.isLt

/-- R106: PCM_UNPACK(h): the same 16 bits read as two's complement. -/
def pcmUnpack (h : Half) : Half := h

/-- R107, R53: the native samples of one payload word in playing order, least significant lane first. -/
def natives (u : Vector Half 256) : Encoding → Word → List Half
  | .ulaw, w => [ulawExpand u (w.extractLsb' 0 8), ulawExpand u (w.extractLsb' 8 8),
      ulawExpand u (w.extractLsb' 16 8), ulawExpand u (w.extractLsb' 24 8)]
  | .pcm16, w => [pcmUnpack (w.extractLsb' 0 16), pcmUnpack (w.extractLsb' 16 16)]

/-- `(a*p + b*s) >> n` of two i16 values, in exact arithmetic (R108). -/
def blend (a b : Int) (n : Nat) (p s : Half) : Half := trunc16 (asr (a * p.toInt + b * s.toInt) n)

/-- R108: INTERP(r, p, s), the output samples one native sample gives at a rate's RATIO. -/
def interp : Rate → Half → Half → List Half
  | .r44100, _, s => [s]
  | .r22050, p, s => [blend 1 1 1 p s, s]
  | .r11025, p, s => [blend 3 1 2 p s, blend 1 1 1 p s, blend 1 3 2 p s, s]

/-- The loop of R109 over the native samples of a word: outputs, and the last native sample. -/
def interpAll (r : Rate) : List Half → Half → List Half × Half
  | [], p => ([], p)
  | s :: rest, p => (interp r p s ++ (interpAll r rest s).1, (interpAll r rest s).2)

/-- R109: DECODE_WORD(f, w, p). -/
def decodeWord (u : Vector Half 256) (f : Fmt) (w : Word) (p : Half) : List Half × Half :=
  interpAll (rateOf f) (natives u (encodingOf f) w) p

end Sys2Proof.Machine
end

