-- ==== Sys2Proof/Machine/Decoder.lean ====
section
/-! DEFINITION. The sample-format decoder (41_format_decoder.md): the six decode operations R110 to R115, each
DECODE_WORD at one format code, the dispatch among them (42_voice_player.md R140), and the meanings of the
header-layer instructions. A decode operation presented to the block answers `(outs, p')` and writes no
register (R110: "State written: none itself; the caller stores p'"; log 5). -/

namespace Sys2Proof.Machine

/-- R110: DEC_ULAW44. -/
def decUlaw44 (u : Vector Half 256) (w : Word) (p : Half) : List Half × Half := decodeWord u .ulaw44 w p

/-- R111: DEC_PCM44. -/
def decPcm44 (u : Vector Half 256) (w : Word) (p : Half) : List Half × Half := decodeWord u .pcm44 w p

/-- R112: DEC_ULAW22. -/
def decUlaw22 (u : Vector Half 256) (w : Word) (p : Half) : List Half × Half := decodeWord u .ulaw22 w p

/-- R113: DEC_PCM22. -/
def decPcm22 (u : Vector Half 256) (w : Word) (p : Half) : List Half × Half := decodeWord u .pcm22 w p

/-- R114: DEC_ULAW11. -/
def decUlaw11 (u : Vector Half 256) (w : Word) (p : Half) : List Half × Half := decodeWord u .ulaw11 w p

/-- R115: DEC_PCM11. -/
def decPcm11 (u : Vector Half 256) (w : Word) (p : Half) : List Half × Half := decodeWord u .pcm11 w p

/-- R140: the decode operation a format selects. -/
def decodeOp (u : Vector Half 256) : Fmt → Word → Half → List Half × Half
  | .ulaw44 => decUlaw44 u
  | .pcm44 => decPcm44 u
  | .ulaw22 => decUlaw22 u
  | .pcm22 => decPcm22 u
  | .ulaw11 => decUlaw11 u
  | .pcm11 => decPcm11 u

/-- A decode operation's result goes back to the voice that presented it; no register is written. -/
def answerDecode (r : List Half × Half) (x : Voice) : Except Fault Voice := .ok (x.respond (.decoded r.1 r.2))

/-- DEC_ULAW44 (R110). -/
def execDecUlaw44 (_count : Count) (d : DecodeOperands) (s : State) : Host.Outcome State Fault Refusal :=
  onVoice d.voice s (answerDecode (decUlaw44 s.cfg.ulawTable d.word d.prior))

/-- DEC_PCM44 (R111). -/
def execDecPcm44 (_count : Count) (d : DecodeOperands) (s : State) : Host.Outcome State Fault Refusal :=
  onVoice d.voice s (answerDecode (decPcm44 s.cfg.ulawTable d.word d.prior))

/-- DEC_ULAW22 (R112). -/
def execDecUlaw22 (_count : Count) (d : DecodeOperands) (s : State) : Host.Outcome State Fault Refusal :=
  onVoice d.voice s (answerDecode (decUlaw22 s.cfg.ulawTable d.word d.prior))

/-- DEC_PCM22 (R113). -/
def execDecPcm22 (_count : Count) (d : DecodeOperands) (s : State) : Host.Outcome State Fault Refusal :=
  onVoice d.voice s (answerDecode (decPcm22 s.cfg.ulawTable d.word d.prior))

/-- DEC_ULAW11 (R114). -/
def execDecUlaw11 (_count : Count) (d : DecodeOperands) (s : State) : Host.Outcome State Fault Refusal :=
  onVoice d.voice s (answerDecode (decUlaw11 s.cfg.ulawTable d.word d.prior))

/-- DEC_PCM11 (R115). -/
def execDecPcm11 (_count : Count) (d : DecodeOperands) (s : State) : Host.Outcome State Fault Refusal :=
  onVoice d.voice s (answerDecode (decPcm11 s.cfg.ulawTable d.word d.prior))

/-- An unrecognised code selects no decode operation: no output, the response is `none`. No register is read or
written (R37) and no fault is raised: R161 has it raised "by PRODUCE, and only by PRODUCE" (log 6). -/
def answerNoOperation (x : Voice) : Except Fault Voice := .ok (x.respond .none)

/-- DEC_UNRECOGNISED presented alone (R74). What the code does to a voice that has latched it is PRODUCE's decode
fault (R161, `produceVoice`). -/
def execDecUnrecognised (_code : Byte) (_count : Count) (d : DecodeOperands) (s : State) :
    Host.Outcome State Fault Refusal :=
  onVoice d.voice s answerNoOperation

end Sys2Proof.Machine
end

