-- ==== Sys2Proof/Machine/Envelope.lean ====
section
/-! DEFINITION. The fade envelope multiplier (40_fade_table.md): FADE_LOOKUP, FADE_ADVANCE, ENV_APPLY, and the order
in which they meet an output sample (42_voice_player.md R134). -/

namespace Sys2Proof.Machine

/-- R90: `i = p >> 24`, "top 8 bits select one of 256 segments". -/
def segmentIndex (p : Word) : Fin 256 := (p.extractLsb' 24 8).toFin

/-- R90: `f = (p >> 8) & 0xFFFF`, the fractional weight. -/
def fraction (p : Word) : Nat := (p.extractLsb' 8 16).toNat

/-- R90: `T[i]` as an integer. -/
def fadeEntry (t : Vector Half 257) (i : Fin 257) : Int := t[i].toInt

/-- R90: FADE_LOOKUP(p), `(t0 * (0x10000 - f) + t1 * f) >> 16`. -/
def fadeLookup (t : Vector Half 257) (p : Word) : Int :=
  asr (fadeEntry t (segmentIndex p).castSucc * (65536 - (fraction p : Int))
    + fadeEntry t (segmentIndex p).succ * (fraction p : Int)) 16

/-- R93: FADE_ADVANCE(p, r). -/
def fadeAdvance (p r : Word) : Word := satAdd32 p r

/-- R94: ENV_APPLY(s, amp), `trunc_16((s * amp) >> ENV_SHIFT)`. -/
def envApply (shift : Nat) (s : Half) (amp : Int) : Half := trunc16 (asr (s.toInt * amp) shift)

/-- R134: look up with the current phase, apply, then advance, for each output sample in order. The scaled samples
and the phase after them. -/
def scaleAll (cfg : Config) (rate : Word) : Word → List Half → List Half × Word
  | p, [] => ([], p)
  | p, s :: rest =>
    (envApply cfg.envShift s (fadeLookup cfg.fadeTable p) :: (scaleAll cfg rate (fadeAdvance p rate) rest).1,
      (scaleAll cfg rate (fadeAdvance p rate) rest).2)

end Sys2Proof.Machine
end

