-- ==== Sys2Proof/Machine/Voice.lean ====
section
/-! DEFINITION. The voice playback datapath (42_voice_player.md): the six host commands. Each is atomic (20_memory.md
R60) and is a function of its own voice's registers, the configuration and the sample memory alone (R176). -/

namespace Sys2Proof.Machine

/-! ### ASSIGN -/

/-- R131, steps 2 to 4: the registers of a grain of a recognised format. -/
def startGrain (base : WordAddr) (f : Fmt) (fileLen : Count) (start len : Nat) (x : VoiceRegs) : VoiceRegs :=
  let segStartW : Word := BitVec.ofNat 32 (1 + start / spw f)
  setFlags
    { x with
      fmt := formatCode f, base := base, fileLen := fileLen, segStartW := segStartW, cursor := segStartW.toNat,
      segLen := BitVec.ofNat 24 len, segTotal := BitVec.ofNat 24 len, prior := 0#16, fadePos := 0#32,
      fadeRate := BitVec.ofNat 32 (0xFFFFFFFF / len) }

/-- R132: the registers after an ASSIGN whose header carries an unrecognised code: six hold free values (log 8). -/
def startUnrecognised (v : Nat) (base : WordAddr) (code : Byte) (fileLen : Count) (x : Voice) : Voice :=
  let free := fun k => Config.freeValue v (x.port.draws + k)
  (x.withRegs (setFlags
    { x.regs with
      fmt := code, base := base, fileLen := fileLen, segStartW := free 0, cursor := (free 1).toNat,
      segLen := (free 2).setWidth 24, segTotal := (free 3).setWidth 24, prior := (free 4).setWidth 16,
      fadePos := 0#32, fadeRate := free 5 })).drawn 6

/-- ASSIGN once the header word is read (R131 from step 2 on, R132). -/
def assignHeader (cfg : Config) (v : Nat) (base : WordAddr) (startMs lengthMs hdr : Word) (x : Voice) : Voice :=
  match formatOf (headerCode hdr) with
  | none =>
    (startUnrecognised v base (headerCode hdr) (headerCount hdr) x).respond (.status .ok)
  | some f =>
    let start := segmentStart cfg f (headerCount hdr) startMs
    let len := segmentLen cfg f (headerCount hdr) startMs lengthMs
    if len < 1 then x.respond (.status .rejLen)
    else (x.withRegs (startGrain base f (headerCount hdr) start len x.regs)).respond (.status .ok)

/-- ASSIGN at its voice (R131), its tests in the order of R166. -/
def assignVoice (cfg : Config) (m : List Host.Cell) (v : Nat) (sample : Option WordAddr) (startMs lengthMs : Word)
    (x : Voice) : Except Fault Voice :=
  match sample with
  | none => .ok (x.respond (.status .rejNull))
  | some base =>
    if x.regs.playing = true then .ok (x.respond (.status .rejBusy))
    else
      match memRead m base 0 with
      | .error e => .error e
      | .ok hdr => .ok (assignHeader cfg v base startMs lengthMs hdr x)

/-- ASSIGN (R131, R132). -/
def execAssign (v : Nat) (sample : Option WordAddr) (startMs lengthMs : Word) (s : State) :
    Host.Outcome State Fault Refusal :=
  onVoice v s (assignVoice s.cfg s.mem v sample startMs lengthMs)

/-! ### PRODUCE -/

/-- R133: the outputs of one payload word before the envelope, and the new prior. -/
def wordRaw (cfg : Config) (f : Fmt) (w : Word) (x : VoiceRegs) : List Half × Half :=
  decodeOp cfg.ulawTable f w x.prior

/-- R133: what one payload word adds to the frame. -/
def wordFrame (cfg : Config) (f : Fmt) (w : Word) (x : VoiceRegs) : List Half :=
  (scaleAll cfg x.fadeRate x.fadePos (wordRaw cfg f w x).1).1

/-- R133: the registers after one payload word: the cursor post-incremented (R56), the prior stored, the phase
advanced once per output sample. -/
def afterWord (cfg : Config) (f : Fmt) (w : Word) (x : VoiceRegs) : VoiceRegs :=
  { x with
    cursor := x.cursor + 1
    prior := (wordRaw cfg f w x).2
    fadePos := (scaleAll cfg x.fadeRate x.fadePos (wordRaw cfg f w x).1).2 }

/-- R133: the loop over the payload words of a frame: the samples it emits and the registers after it. -/
def frameLoop (cfg : Config) (m : List Host.Cell) (f : Fmt) : Nat → VoiceRegs → Except Fault (List Half × VoiceRegs)
  | 0, x => .ok ([], x)
  | n + 1, x =>
    match memRead m x.base x.cursor with
    | .error e => .error e
    | .ok w =>
      match frameLoop cfg m f n (afterWord cfg f w x) with
      | .error e => .error e
      | .ok (rest, x') => .ok (wordFrame cfg f w x ++ rest, x')

/-- PRODUCE at its voice (R133, R135, R166): Idle, then the decode fault, then the frame. -/
def produceVoice (cfg : Config) (m : List Host.Cell) (x : Voice) : Except Fault Voice :=
  if x.regs.playing = false then .ok (x.respond .none)
  else
    match formatOf x.regs.fmt with
    | none => .ok (takeDecodeFault x.regs.fmt x)
    | some f =>
      match frameLoop cfg m f (wordsPerFrame cfg f) x.regs with
      | .error e => .error e
      | .ok (frame, r) => .ok (((x.withRegs (endOfFrame cfg f r)).emit frame).respond (.frame frame))

/-- PRODUCE (R133). -/
def execProduce (v : Nat) (s : State) : Host.Outcome State Fault Refusal :=
  onVoice v s (produceVoice s.cfg s.mem)

/-! ### The queries -/

/-- R136: elapsed milliseconds; `(pc - seg_start_w) * SPW` is exact on integers. -/
def positionMs (cfg : Config) (x : VoiceRegs) : Word :=
  match x.playing, formatOf x.fmt with
  | true, some f => nativeToMs cfg f (((x.cursor : Int) - (x.segStartW.toNat : Int)) * (spw f : Int))
  | _, _ => 0#32

/-- R137: total milliseconds. -/
def lengthMs (cfg : Config) (x : VoiceRegs) : Word :=
  match x.playing, formatOf x.fmt with
  | true, some f => nativeToMs cfg f (x.segTotal.toNat : Int)
  | _, _ => 0#32

/-- QUERY_POS (R136). -/
def execQueryPos (v : Nat) (s : State) : Host.Outcome State Fault Refusal :=
  onVoice v s (fun x => .ok (x.respond (.millis (positionMs s.cfg x.regs))))

/-- QUERY_LEN (R137). -/
def execQueryLen (v : Nat) (s : State) : Host.Outcome State Fault Refusal :=
  onVoice v s (fun x => .ok (x.respond (.millis (lengthMs s.cfg x.regs))))

/-- IS_PLAYING (R138). -/
def execIsPlaying (v : Nat) (s : State) : Host.Outcome State Fault Refusal :=
  onVoice v s (fun x => .ok (x.respond (.bit x.regs.playing)))

/-- IS_BUSY (R139). -/
def execIsBusy (v : Nat) (s : State) : Host.Outcome State Fault Refusal :=
  onVoice v s (fun x => .ok (x.respond (.bit x.regs.busy)))

end Sys2Proof.Machine
end

