-- ==== Sys2Proof/Machine/Dispatch.lean ====
section
/-! DEFINITION. One arm per row of spec/opcode_table.json, each one call of the instruction's meaning. -/

namespace Sys2Proof.Machine

/-- The meaning of an instruction. -/
def exec (i : Instr) (s : State) : Host.Outcome State Fault Refusal :=
  match i with
  | .decUlaw44 count d => Sys2Proof.Machine.execDecUlaw44 count d s
  | .decPcm44 count d => Sys2Proof.Machine.execDecPcm44 count d s
  | .decUlaw22 count d => Sys2Proof.Machine.execDecUlaw22 count d s
  | .decPcm22 count d => Sys2Proof.Machine.execDecPcm22 count d s
  | .decUlaw11 count d => Sys2Proof.Machine.execDecUlaw11 count d s
  | .decPcm11 count d => Sys2Proof.Machine.execDecPcm11 count d s
  | .decUnrecognised code count d => Sys2Proof.Machine.execDecUnrecognised code count d s
  | .assign v sample startMs lengthMs => Sys2Proof.Machine.execAssign v sample startMs lengthMs s
  | .produce v => Sys2Proof.Machine.execProduce v s
  | .queryPos v => Sys2Proof.Machine.execQueryPos v s
  | .queryLen v => Sys2Proof.Machine.execQueryLen v s
  | .isPlaying v => Sys2Proof.Machine.execIsPlaying v s
  | .isBusy v => Sys2Proof.Machine.execIsBusy v s

end Sys2Proof.Machine
end

