-- ==== Sys2Proof/Machine/Step.lean ====
section
/-! DEFINITION. One step: the reset event if it is asked for (70_reset_and_hazards.md R180), else the next
outstanding request, decoded and executed whole (20_memory.md R60), else nothing: "a voice does nothing until a
command arrives" (00_scope.md R3). -/

namespace Sys2Proof.Machine

/-- One step of the block. -/
def step (s : State) : Host.Outcome State Fault Refusal :=
  if s.resetLine = true then .next (applyReset s)
  else
    match nextRequest s with
    | none => .next s
    | some (r, s') =>
      match decode r with
      | .ok i => exec i s'
      | .error e => .refused (refusalOf e)

/-- The state in which the instruction of an opcode-table word is the only request outstanding, so that step runs
exactly it: the block has no program to fetch, the host issues the request (log 3). -/
def State.withFetchWord (s : State) (nbits w : Nat) : State :=
  { s with control := [tableRequest nbits w], production := [], resetLine := false }

end Sys2Proof.Machine
end

