-- ==== Sys2Proof/Safety.lean ====
section
/-! DEFINITION. What claims are stated in: the invariants of a voice (10_state.md R36) and of the machine, which
registers are unread (R40), a finished run (70_reset_and_hazards.md R188), and closed forms for what a frame is
made of (41_format_decoder.md R116, 40_fade_table.md R97). None of it is used by a step. -/

namespace Sys2Proof.Machine

/-! ### Invariants -/

/-- R36 item 4, R22: `busy = playing`. -/
def VoiceRegs.FlagsAgree (x : VoiceRegs) : Prop := x.busy = x.playing

/-- R36 items 1, 3, 5, 6, 7 while a grain of a recognised format plays, by the number `k` of frames produced so far:
the cursor and the remaining length have moved `k` frames from where ASSIGN put them (R141, R143), the segment
lies inside the file (from the word its start was rounded down to), the rate is that of the whole segment
(R32), and the phase is `min(n * fade_rate, 0xFFFFFFFF)` at output sample `n = k * FRAME` (R97). -/
def VoiceRegs.GrainInv (cfg : Config) (x : VoiceRegs) : Prop :=
  ∀ f, x.playing = true → formatOf x.fmt = some f →
    ∃ k : Nat,
      x.cursor = x.segStartW.toNat + k * wordsPerFrame cfg f ∧
      x.segLen.toNat + k * nativesPerFrame cfg f = x.segTotal.toNat ∧
      1 ≤ x.segLen.toNat ∧
      1 ≤ x.segStartW.toNat ∧
      (x.segStartW.toNat - 1) * spw f + x.segTotal.toNat ≤ x.fileLen.toNat ∧
      x.fadeRate.toNat = 0xFFFFFFFF / x.segTotal.toNat ∧
      x.fadePos.toNat = min (k * cfg.frame * x.fadeRate.toNat) 0xFFFFFFFF

/-- The invariant of the machine: FRAME is a positive multiple of 16 (R8), the memory is in canonical form, there is
at least one voice (R9), and every voice meets R36. -/
def State.Inv (s : State) : Prop :=
  s.cfg.wf ∧ Memory.wf s.mem = true ∧ 1 ≤ s.voices.length ∧
    ∀ x ∈ s.voices, x.regs.FlagsAgree ∧ x.regs.GrainInv s.cfg

/-! ### Registers that hold an unspecified value -/

/-- Two voices that differ only in registers R39 or R132 leave unspecified: with `playing = 0` all but the flags; with
`playing = 1` and an unrecognised code the six that ASSIGN could not compute; otherwise none. -/
def Voice.SameButUnread (x y : Voice) : Prop :=
  x.port = y.port ∧ x.regs.playing = y.regs.playing ∧ x.regs.busy = y.regs.busy ∧
  (x.regs.playing = true →
    x.regs.fmt = y.regs.fmt ∧ x.regs.base = y.regs.base ∧ x.regs.fileLen = y.regs.fileLen ∧
    x.regs.fadePos = y.regs.fadePos ∧ ((formatOf x.regs.fmt).isSome = true → x.regs = y.regs))

/-- Two states whose voices differ only in unspecified registers. -/
def State.SameButUnread (s t : State) : Prop :=
  s.cfg = t.cfg ∧ s.mem = t.mem ∧ s.control = t.control ∧ s.production = t.production ∧
  s.resetLine = t.resetLine ∧ s.turns = t.turns ∧ List.Forall₂ Voice.SameButUnread s.voices t.voices

/-- Two outcomes of the same kind, with equal reasons or related next states. -/
def SameOutcome (rel : State → State → Prop) :
    Host.Outcome State Fault Refusal → Host.Outcome State Fault Refusal → Prop
  | .next a, .next b => rel a b
  | .fault e, .fault e' => e = e'
  | .refused r, .refused r' => r = r'
  | _, _ => False

/-! ### Runs -/

/-- R188: every command has responded and no fault is in the log. A voice may still be Playing. -/
def State.Finished (s : State) : Prop :=
  s.control = [] ∧ s.production = [] ∧ ∀ x ∈ s.voices, x.port.faults = []

/-- R188, "if the claim is about completed grains": also every voice answers 0 to IS_PLAYING. -/
def State.FinishedGrains (s : State) : Prop := s.Finished ∧ ∀ x ∈ s.voices, x.regs.playing = false

/-- `n` PRODUCE commands for voice `v`, one after the other. -/
def produceTimes (v : Nat) : Nat → State → Host.Outcome State Fault Refusal
  | 0, s => .next s
  | n + 1, s =>
    match exec (.produce v) s with
    | .next t => produceTimes v n t
    | .fault e => .fault e
    | .refused r => .refused r

/-- R141: `ceil(L / c)`, the number of frames of a grain of `len` native samples. -/
def framesOfGrain (cfg : Config) (f : Fmt) (len : Nat) : Nat :=
  (len + nativesPerFrame cfg f - 1) / nativesPerFrame cfg f

/-! ### What a frame is made of -/

/-- R116: the fold of DECODE_WORD over a list of payload words. -/
def rawOutputs (u : Vector Half 256) (f : Fmt) : List Word → Half → List Half × Half
  | [], p => ([], p)
  | w :: rest, p =>
    ((decodeWord u f w p).1 ++ (rawOutputs u f rest (decodeWord u f w p).2).1,
      (rawOutputs u f rest (decodeWord u f w p).2).2)

/-- R93, R97: the phase `n` output samples after `p`, `min(p + n * r, 0xFFFFFFFF)`. -/
def phaseAfter (p r : Word) (n : Nat) : Word := BitVec.ofNat 32 (min (p.toNat + n * r.toNat) 0xFFFFFFFF)

/-- R134: output sample number `n` is scaled with the amplitude at phase `min(p + n * r, 0xFFFFFFFF)`. -/
def scaledFrame (cfg : Config) (p r : Word) (raw : List Half) : List Half :=
  raw.mapIdx fun n s => envApply cfg.envShift s (fadeLookup cfg.fadeTable (phaseAfter p r n))

end Sys2Proof.Machine
end

