-- ==== Sys2Proof/Certificates/Slice0/Obligations.lean ====
section
/-! DEFINITION. The statements for the provers, each a reading of the spec's rules. Statements about an instruction's
result are equations with a next state, so they are its completion statements too. -/

open Sys2Proof Sys2Proof.Machine

/-! ### Reset and stepping -/

/-- R39: after reset every voice has `playing = 0` and `busy = 0`, and has answered, emitted and logged nothing. (The
values of the ten other registers are the model's own, log 7, and are not stated.) -/
def Obligations.ResetLeavesEveryVoiceIdle : Prop :=
  State.reset.voices ≠ [] ∧ State.reset.resetLine = false ∧
  ∀ x ∈ State.reset.voices, x.regs.playing = false ∧ x.regs.busy = false ∧
    x.port.responses = [] ∧ x.port.emitted = [] ∧ x.port.faults = []

/-- The invariant of the machine holds after reset. -/
def Obligations.ResetMeetsTheInvariant : Prop := State.reset.Inv

/-- R36: every step keeps the invariant, from every state that meets it. -/
def Obligations.StepKeepsTheInvariant : Prop :=
  ∀ s t : State, s.Inv → step s = .next t → t.Inv

/-- What a step adds around exec: with no reset asked for, one outstanding request leaves its path's list and the
instruction its bits decode to is executed. A request outstanding alone is the one served. Of several, whichever paths
issued them and in whatever order, one is served that a free value draws (R60, R166: "in either order"; the form of the
draw is the model's, log 2), and the turn is counted; only the one served needs to decode. -/
def Obligations.StepRunsTheDecodedInstruction : Prop :=
  ∀ (s : State) (r : Request) (i : Instr), s.resetLine = false → decode r = .ok i →
    (s.control = [r] ∧ s.production = [] ∨ s.control = [] ∧ s.production = [r] →
      step s = exec i { s with control := [], production := [] }) ∧
    (2 ≤ s.control.length + s.production.length →
      let k := Config.orderDraw s.turns % (s.control.length + s.production.length)
      (s.control[k]? = some r →
        step s = exec i { s with control := s.control.eraseIdx k, turns := s.turns + 1 }) ∧
      (s.control.length ≤ k → s.production[k - s.control.length]? = some r →
        step s = exec i
          { s with production := s.production.eraseIdx (k - s.control.length), turns := s.turns + 1 }))

/-- R3: "a voice does nothing until a command arrives". -/
def Obligations.StepWaitsWithNothingOutstanding : Prop :=
  ∀ s : State, s.resetLine = false → s.control = [] → s.production = [] → step s = .next s

/-- R180: the reset event idles every voice, emits nothing and answers nothing; R181: configuration and memory are not
touched. The ten other registers hold free values (log 9), of which nothing is stated. The MODEL'S CHOICE (log 9), not
the spec's: requests outstanding are kept (`t.control`, `t.production`), the histories are kept, and the event is asked
for by a bit that it clears. -/
def Obligations.ResetEventIdlesEveryVoice : Prop :=
  ∀ s : State, s.resetLine = true →
    ∃ t, step s = .next t ∧ t.voices.length = s.voices.length ∧ t.cfg = s.cfg ∧ t.mem = s.mem ∧
      t.control = s.control ∧ t.production = s.production ∧ t.resetLine = false ∧
      ∀ (v : Nat) (x y : Voice), s.voices[v]? = some x → t.voices[v]? = some y →
        y.regs.playing = false ∧ y.regs.busy = false ∧ y.port.responses = x.port.responses ∧
        y.port.emitted = x.port.emitted ∧ y.port.faults = x.port.faults

/-- R64, R55, R181: no step changes the tables, the configuration or a byte of the sample memory. -/
def Obligations.StepKeepsTablesAndSampleMemory : Prop :=
  ∀ s t : State, step s = .next t →
    t.cfg.fadeTable = s.cfg.fadeTable ∧ t.cfg.ulawTable = s.cfg.ulawTable ∧ t.cfg = s.cfg ∧
    t.voices.length = s.voices.length ∧ ∀ a, byteAt t.mem a = byteAt s.mem a

/-- R177, D24: a step adds to what a voice has answered, emitted and logged; it never takes anything away. -/
def Obligations.HistoriesOnlyGrow : Prop :=
  ∀ (s t : State) (v : Nat) (x y : Voice), step s = .next t → s.voices[v]? = some x → t.voices[v]? = some y →
    x.port.responses <:+ y.port.responses ∧ x.port.emitted <:+ y.port.emitted ∧ x.port.faults <:+ y.port.faults

/-- R40: a register that holds an unspecified value is never read: from two states that differ only in such registers,
a step gives the same fault, the same refusal, or two next states that again differ only in such registers (and so
the same responses, frames and fault logs). With `playing = 0`, PRODUCE changes no register and the queries answer 0,
whatever the other registers hold. -/
def Obligations.UnspecifiedRegistersAreNeverRead : Prop :=
  (∀ s t : State, s.SameButUnread t → SameOutcome State.SameButUnread (step s) (step t)) ∧
  ∀ (s : State) (v : Nat) (x : Voice), s.voices[v]? = some x → x.regs.playing = false →
    exec (.produce v) s = .next (s.setVoice v (x.respond .none)) ∧
    exec (.queryPos v) s = .next (s.setVoice v (x.respond (.millis 0#32))) ∧
    exec (.queryLen v) s = .next (s.setVoice v (x.respond (.millis 0#32)))

/-! ### Encodings -/

/-- Decoding the encoding of an instruction gives the instruction back, every operand at every value. -/
def Obligations.DecodeUndoesEncode : Prop :=
  ∀ i : Instr, i.codeFits = true → decode (encode i) = .ok i

/-- The other direction: the bits of a request that decodes are those its instruction encodes to, and no recognised
code decodes to the catch-all (R74, R80). -/
def Obligations.EncodeUndoesDecode : Prop :=
  ∀ (r : Request) (i : Instr), decode r = .ok i →
    (encode i).layer = r.layer ∧ (encode i).code = r.code ∧ (encode i).voice = r.voice ∧ i.voice = r.voice ∧
    i.codeFits = true

/-- Words of the opcode table, written out from R70, R71 and R75. -/
def Obligations.WrittenOutWordsDecode : Prop :=
  decodeTableWord 32 0x01000010 = some (.decUlaw44 16#24 ⟨0, 0#32, 0#16⟩) ∧
  decodeTableWord 32 0x81010000 = some (.decPcm44 65536#24 ⟨0, 0#32, 0#16⟩) ∧
  decodeTableWord 32 0x02000008 = some (.decUlaw22 8#24 ⟨0, 0#32, 0#16⟩) ∧
  decodeTableWord 32 0x82000018 = some (.decPcm22 24#24 ⟨0, 0#32, 0#16⟩) ∧
  decodeTableWord 32 0x03FFFFFF = some (.decUlaw11 0xFFFFFF#24 ⟨0, 0#32, 0#16⟩) ∧
  decodeTableWord 32 0x83000018 = some (.decPcm11 24#24 ⟨0, 0#32, 0#16⟩) ∧
  decodeTableWord 32 0x05000010 = some (.decUnrecognised 0x05#8 16#24 ⟨0, 0#32, 0#16⟩) ∧
  decodeTableWord 8 1 = some (.assign 0 none 0#32 0#32) ∧
  decodeTableWord 8 2 = some (.produce 0) ∧
  decodeTableWord 8 3 = some (.queryPos 0) ∧
  decodeTableWord 8 4 = some (.queryLen 0) ∧
  decodeTableWord 8 5 = some (.isPlaying 0) ∧
  decodeTableWord 8 6 = some (.isBusy 0) ∧
  decodeTableWord 8 0 = none ∧ decodeTableWord 8 7 = none

/-- R76: `op` 0 and 7 name no command, and the model refuses them, whichever path issues them. -/
def Obligations.UnusedOpsAreRefused : Prop :=
  ∀ (s : State) (r : Request) (op : BitVec 3), op = 0#3 ∨ op = 7#3 →
    r.layer = .command → r.code = [op.setWidth 8] → s.resetLine = false →
    s.control = [r] ∧ s.production = [] ∨ s.control = [] ∧ s.production = [r] →
    decode r = .error (.noSuchCommand op) ∧ step s = .refused (.noSuchCommand op)

/-- R70: the fields of the header word; its one length is four bytes; a count of 0 is a legal header, and every ASSIGN
on it that reaches the length test is rejected. -/
def Obligations.HeaderFieldsAreTheirBits : Prop :=
  (∀ (r : Request) (i : Instr), r.layer = .header → decode r = .ok i → r.code.length = 4) ∧
  (∀ w : Word, (headerCode w).toNat = w.toNat / 2 ^ 24 ∧ (headerCount w).toNat = w.toNat % 2 ^ 24 ∧
    headerWord (headerCode w) (headerCount w) = w) ∧
  ∀ (s : State) (v : Nat) (x : Voice) (b : WordAddr) (st ln hdr : Word) (f : Fmt), s.voices[v]? = some x →
    x.regs.playing = false → wordAt s.mem b = some hdr → formatOf (headerCode hdr) = some f → headerCount hdr = 0#24 →
    exec (.assign v (some b) st ln) s = .next (s.setVoice v (x.respond (.status .rejLen)))

/-- R74: exactly the six codes are recognised; the other 250 are not. -/
def Obligations.ExactlySixCodesAreRecognised : Prop :=
  (∀ c : Byte, formatOf c = none ↔ c ∉ [0x01#8, 0x81#8, 0x02#8, 0x82#8, 0x03#8, 0x83#8]) ∧
  (∀ f : Fmt, formatOf (formatCode f) = some f) ∧
  ((List.range 256).filter fun n => (formatOf (BitVec.ofNat 8 n)).isNone).length = 250

/-- U15: an instruction for a voice that does not exist is refused. -/
def Obligations.MissingVoiceIsRefused : Prop :=
  ∀ (i : Instr) (s : State), s.voices.length ≤ i.voice → exec i s = .refused (.noSuchVoice i.voice)

/-! ### The decoder. That a decode operation may be presented alone, and answers through its voice's port, is the
model's form (log 5); the values are those of the rules cited. -/

/-- R110 to R115: the six decode operations, each with its format code, its outputs and its new prior, in exact
arithmetic with shifts that round down. A u-law byte b is the table entry `ULAW_TABLE[b]` (R105). -/
def Obligations.DecodeOperationsFollowTheirPseudocode : Prop :=
  ∀ (t : Vector Half 256) (w : Word) (p : Half),
    let s0 := p.toInt
    let u := fun b : Byte => t[b.toNat]'b.isLt
    let u1 := (u (w.extractLsb' 0 8)).toInt
    let u2 := (u (w.extractLsb' 8 8)).toInt
    let u3 := (u (w.extractLsb' 16 8)).toInt
    let u4 := (u (w.extractLsb' 24 8)).toInt
    let h1 := (w.extractLsb' 0 16).toInt
    let h2 := (w.extractLsb' 16 16).toInt
    let outs := fun f => (decodeOp t f w p).1.map BitVec.toInt
    let last := fun f => (decodeOp t f w p).2.toInt
    (formatOf 0x01#8 = some .ulaw44 ∧ outs .ulaw44 = [u1, u2, u3, u4] ∧ last .ulaw44 = u4) ∧
    (formatOf 0x81#8 = some .pcm44 ∧ outs .pcm44 = [h1, h2] ∧ last .pcm44 = h2) ∧
    (formatOf 0x02#8 = some .ulaw22 ∧ last .ulaw22 = u4 ∧
      outs .ulaw22 = [(s0 + u1) / 2, u1, (u1 + u2) / 2, u2, (u2 + u3) / 2, u3, (u3 + u4) / 2, u4]) ∧
    (formatOf 0x82#8 = some .pcm22 ∧ last .pcm22 = h2 ∧ outs .pcm22 = [(s0 + h1) / 2, h1, (h1 + h2) / 2, h2]) ∧
    (formatOf 0x03#8 = some .ulaw11 ∧ last .ulaw11 = u4 ∧
      outs .ulaw11 =
        [(3 * s0 + u1) / 4, (s0 + u1) / 2, (s0 + 3 * u1) / 4, u1,
         (3 * u1 + u2) / 4, (u1 + u2) / 2, (u1 + 3 * u2) / 4, u2,
         (3 * u2 + u3) / 4, (u2 + u3) / 2, (u2 + 3 * u3) / 4, u3,
         (3 * u3 + u4) / 4, (u3 + u4) / 2, (u3 + 3 * u4) / 4, u4]) ∧
    (formatOf 0x83#8 = some .pcm11 ∧ last .pcm11 = h2 ∧
      outs .pcm11 =
        [(3 * s0 + h1) / 4, (s0 + h1) / 2, (s0 + 3 * h1) / 4, h1,
         (3 * h1 + h2) / 4, (h1 + h2) / 2, (h1 + 3 * h2) / 4, h2])

/-- R110: DEC_ULAW44 answers its four native samples unchanged; it writes no register. -/
def Obligations.DecUlaw44Answers : Prop :=
  ∀ (s : State) (n : Count) (d : DecodeOperands) (x : Voice), s.voices[d.voice]? = some x →
    let u := fun b : Byte => s.cfg.ulawTable[b.toNat]'b.isLt
    let s1 := u (d.word.extractLsb' 0 8)
    let s2 := u (d.word.extractLsb' 8 8)
    let s3 := u (d.word.extractLsb' 16 8)
    let s4 := u (d.word.extractLsb' 24 8)
    decodeHeader (headerWord 0x01#8 n) d = .decUlaw44 n d ∧
    exec (.decUlaw44 n d) s = .next (s.setVoice d.voice (x.respond (.decoded [s1, s2, s3, s4] s4)))

/-- R111: DEC_PCM44 answers its two native samples unchanged; it writes no register. -/
def Obligations.DecPcm44Answers : Prop :=
  ∀ (s : State) (n : Count) (d : DecodeOperands) (x : Voice), s.voices[d.voice]? = some x →
    let s1 := d.word.extractLsb' 0 16
    let s2 := d.word.extractLsb' 16 16
    decodeHeader (headerWord 0x81#8 n) d = .decPcm44 n d ∧
    exec (.decPcm44 n d) s = .next (s.setVoice d.voice (x.respond (.decoded [s1, s2] s2)))

/-- R112: DEC_ULAW22, the exact averages rounded down, with no truncation. -/
def Obligations.DecUlaw22Answers : Prop :=
  ∀ (s : State) (n : Count) (d : DecodeOperands) (x : Voice), s.voices[d.voice]? = some x →
    let u := fun b : Byte => s.cfg.ulawTable[b.toNat]'b.isLt
    let s0 := d.prior.toInt
    let s1 := (u (d.word.extractLsb' 0 8)).toInt
    let s2 := (u (d.word.extractLsb' 8 8)).toInt
    let s3 := (u (d.word.extractLsb' 16 8)).toInt
    let s4 := (u (d.word.extractLsb' 24 8)).toInt
    decodeHeader (headerWord 0x02#8 n) d = .decUlaw22 n d ∧
    ∃ outs : List Half,
      outs.map BitVec.toInt = [(s0 + s1) / 2, s1, (s1 + s2) / 2, s2, (s2 + s3) / 2, s3, (s3 + s4) / 2, s4] ∧
      exec (.decUlaw22 n d) s =
        .next (s.setVoice d.voice (x.respond (.decoded outs (u (d.word.extractLsb' 24 8)))))

/-- R113: DEC_PCM22. -/
def Obligations.DecPcm22Answers : Prop :=
  ∀ (s : State) (n : Count) (d : DecodeOperands) (x : Voice), s.voices[d.voice]? = some x →
    let s0 := d.prior.toInt
    let s1 := (d.word.extractLsb' 0 16).toInt
    let s2 := (d.word.extractLsb' 16 16).toInt
    decodeHeader (headerWord 0x82#8 n) d = .decPcm22 n d ∧
    ∃ outs : List Half,
      outs.map BitVec.toInt = [(s0 + s1) / 2, s1, (s1 + s2) / 2, s2] ∧
      exec (.decPcm22 n d) s = .next (s.setVoice d.voice (x.respond (.decoded outs (d.word.extractLsb' 16 16))))

/-- R114: DEC_ULAW11, the quarter, half and three-quarter blends. -/
def Obligations.DecUlaw11Answers : Prop :=
  ∀ (s : State) (n : Count) (d : DecodeOperands) (x : Voice), s.voices[d.voice]? = some x →
    let u := fun b : Byte => s.cfg.ulawTable[b.toNat]'b.isLt
    let s0 := d.prior.toInt
    let s1 := (u (d.word.extractLsb' 0 8)).toInt
    let s2 := (u (d.word.extractLsb' 8 8)).toInt
    let s3 := (u (d.word.extractLsb' 16 8)).toInt
    let s4 := (u (d.word.extractLsb' 24 8)).toInt
    decodeHeader (headerWord 0x03#8 n) d = .decUlaw11 n d ∧
    ∃ outs : List Half,
      outs.map BitVec.toInt =
        [(3 * s0 + s1) / 4, (s0 + s1) / 2, (s0 + 3 * s1) / 4, s1,
         (3 * s1 + s2) / 4, (s1 + s2) / 2, (s1 + 3 * s2) / 4, s2,
         (3 * s2 + s3) / 4, (s2 + s3) / 2, (s2 + 3 * s3) / 4, s3,
         (3 * s3 + s4) / 4, (s3 + s4) / 2, (s3 + 3 * s4) / 4, s4] ∧
      exec (.decUlaw11 n d) s =
        .next (s.setVoice d.voice (x.respond (.decoded outs (u (d.word.extractLsb' 24 8)))))

/-- R115: DEC_PCM11. -/
def Obligations.DecPcm11Answers : Prop :=
  ∀ (s : State) (n : Count) (d : DecodeOperands) (x : Voice), s.voices[d.voice]? = some x →
    let s0 := d.prior.toInt
    let s1 := (d.word.extractLsb' 0 16).toInt
    let s2 := (d.word.extractLsb' 16 16).toInt
    decodeHeader (headerWord 0x83#8 n) d = .decPcm11 n d ∧
    ∃ outs : List Half,
      outs.map BitVec.toInt =
        [(3 * s0 + s1) / 4, (s0 + s1) / 2, (s0 + 3 * s1) / 4, s1,
         (3 * s1 + s2) / 4, (s1 + s2) / 2, (s1 + 3 * s2) / 4, s2] ∧
      exec (.decPcm11 n d) s = .next (s.setVoice d.voice (x.respond (.decoded outs (d.word.extractLsb' 16 16))))

/-- R161, cause code 1: a PRODUCE of a voice Playing with an unrecognised code clears both flags, emits nothing, answers
`none`, changes no other register and reads no memory (it does so whatever memory `m` there is); IS_PLAYING and IS_BUSY
then answer 0. The fault is raised by PRODUCE and only by PRODUCE: no other instruction adds to a voice's log (the log is
the model's ghost state, log 17). No instruction changes the latched code of a Playing voice, so the first PRODUCE finds
it. -/
def Obligations.DecodeFaultIsRaisedByProduceOnly : Prop :=
  (∀ c : Byte, localCause (.decodeFault c) = 1) ∧
  (∀ (s : State) (v : Nat) (x : Voice), s.voices[v]? = some x →
    x.regs.playing = true → formatOf x.regs.fmt = none →
    let y : Voice :=
      { regs := { x.regs with playing := false, busy := false }
        port := { x.port with responses := .none :: x.port.responses,
                              faults := .decodeFault x.regs.fmt :: x.port.faults } }
    (∀ m : List Host.Cell,
      exec (.produce v) { s with mem := m } = .next ({ s with mem := m }.setVoice v y)) ∧
    exec (.isPlaying v) (s.setVoice v y) = .next (s.setVoice v (y.respond (.bit false))) ∧
    exec (.isBusy v) (s.setVoice v y) = .next (s.setVoice v (y.respond (.bit false)))) ∧
  ∀ (i : Instr) (s t : State) (v : Nat) (x y : Voice), exec i s = .next t →
    s.voices[v]? = some x → t.voices[v]? = some y →
    (x.regs.playing = true → y.regs.fmt = x.regs.fmt) ∧
    (y.port.faults ≠ x.port.faults →
      i = .produce v ∧ x.regs.playing = true ∧ formatOf x.regs.fmt = none ∧
      y.port.faults = .decodeFault x.regs.fmt :: x.port.faults)

/-- The catch-all row presented alone, the model's form (log 6): a header word of an unrecognised code selects no decode
operation, so the response is `none` at every voice, in every state of the voice; no register changes and no fault is
raised (R161: only PRODUCE raises it). -/
def Obligations.DecUnrecognisedSelectsNoOperation : Prop :=
  ∀ (s : State) (c : Byte) (n : Count) (d : DecodeOperands) (x : Voice), s.voices[d.voice]? = some x →
    (formatOf c = none → decodeHeader (headerWord c n) d = .decUnrecognised c n d) ∧
    exec (.decUnrecognised c n d) s = .next (s.setVoice d.voice
      { x with port := { x.port with responses := .none :: x.port.responses } })

/-- R108: INTERP gives the exact blends, floored; each lies between its two samples; the last is the sample itself. -/
def Obligations.InterpolationIsExactAndInRange : Prop :=
  ∀ p s : Half,
    (interp .r44100 p s).map BitVec.toInt = [s.toInt] ∧
    (interp .r22050 p s).map BitVec.toInt = [(p.toInt + s.toInt) / 2, s.toInt] ∧
    (interp .r11025 p s).map BitVec.toInt =
      [(3 * p.toInt + s.toInt) / 4, (p.toInt + s.toInt) / 2, (p.toInt + 3 * s.toInt) / 4, s.toInt] ∧
    ∀ r, (interp r p s).getLast? = some s ∧ (interp r p s).length = ratioOfRate r ∧
      ∀ o ∈ interp r p s, min p.toInt s.toInt ≤ o.toInt ∧ o.toInt ≤ max p.toInt s.toInt

/-- R117: N words give exactly `N * OPW(f)` outputs, with the six values of OPW; a frame is a whole number of words
and of native samples. -/
def Obligations.DecodedCountIsExact : Prop :=
  (∀ (u : Vector Half 256) (f : Fmt) (ws : List Word) (p : Half),
    (rawOutputs u f ws p).1.length = ws.length * opw f) ∧
  (opw .ulaw44 = 4 ∧ opw .pcm44 = 2 ∧ opw .ulaw22 = 8 ∧ opw .pcm22 = 4 ∧ opw .ulaw11 = 16 ∧ opw .pcm11 = 8) ∧
  ∀ (cfg : Config) (f : Fmt), cfg.wf →
    wordsPerFrame cfg f * opw f = cfg.frame ∧ nativesPerFrame cfg f * ratio f = cfg.frame ∧
    wordsPerFrame cfg f * spw f = nativesPerFrame cfg f

/-- R116: the prior carries across words and frames. `n` consecutive PRODUCEs over the payload words `ws` (two of them:
the words of the first frame, then those of the second) emit frames (listed newest first) that are, one after the other,
the scaled outputs of ONE decode of all of `ws` from the voice's prior before the first; the prior they leave is that
decode's last one; and that decode is INTERP over the native samples of all the words in order, cut nowhere. Premises:
the words exist, and no frame before the last ends the grain. -/
def Obligations.DecodingCarriesAcrossFrames : Prop :=
  ∀ (s : State) (v : Nat) (x : Voice) (f : Fmt) (n : Nat) (ws : List Word),
    s.cfg.wf → s.voices[v]? = some x → x.regs.playing = true → formatOf x.regs.fmt = some f →
    ws.length = n * wordsPerFrame s.cfg f → (n - 1) * nativesPerFrame s.cfg f < x.regs.segLen.toNat →
    hasWords s.mem x.regs.base (x.regs.cursor + ws.length) = true →
    (∀ k < ws.length, wordAt s.mem (x.regs.base + (x.regs.cursor + k)) = ws[k]?) →
    let raw := rawOutputs s.cfg.ulawTable f ws x.regs.prior
    raw = interpAll (rateOf f) (ws.flatMap (natives s.cfg.ulawTable (encodingOf f))) x.regs.prior ∧
    ∃ (t : State) (z : Voice) (frames : List (List Half)), produceTimes v n s = .next t ∧
      t.voices[v]? = some z ∧ frames.length = n ∧ z.port.emitted = frames ++ x.port.emitted ∧
      frames.reverse.flatten = scaledFrame s.cfg x.regs.fadePos x.regs.fadeRate raw.1 ∧
      z.regs.prior = raw.2

/-! ### The envelope -/

/-- R91: the two arrangements of the interpolation agree, so FADE_LOOKUP may be read either way. -/
def Obligations.FadeArrangementsAgree : Prop :=
  (∀ (t0 t1 : Int) (f : Nat), f ≤ 65535 →
    asr (t0 * (65536 - (f : Int)) + t1 * (f : Int)) 16 = t0 + asr ((t1 - t0) * (f : Int)) 16) ∧
  ∀ (t : Vector Half 257) (p : Word),
    fadeLookup t p = fadeEntry t (segmentIndex p).castSucc +
      asr ((fadeEntry t (segmentIndex p).succ - fadeEntry t (segmentIndex p).castSucc) * (fraction p : Int)) 16

/-- R90: the index is the top eight bits, the fraction the middle sixteen; the low eight are ignored, and a fraction of
0 gives the entry itself. -/
def Obligations.FadeLookupFieldsAreTheirBits : Prop :=
  ∀ (t : Vector Half 257) (p : Word),
    (segmentIndex p).val = p.toNat / 2 ^ 24 ∧ fraction p = p.toNat / 2 ^ 8 % 2 ^ 16 ∧
    fadeLookup t p = fadeLookup t (p &&& 0xFFFFFF00#32) ∧
    (fraction p = 0 → fadeLookup t p = fadeEntry t (segmentIndex p).castSucc)

/-- R95: the amplitude lies between the two entries of its segment; strictly below the upper one while rising; in a
falling segment it reaches the lower one at the largest fraction. -/
def Obligations.AmplitudeStaysInItsSegment : Prop :=
  (∀ (t : Vector Half 257) (p : Word),
    let a := fadeEntry t (segmentIndex p).castSucc
    let b := fadeEntry t (segmentIndex p).succ
    min a b ≤ fadeLookup t p ∧ fadeLookup t p ≤ max a b ∧
    (a < b → fadeLookup t p < b) ∧ (b < a → fraction p = 65535 → fadeLookup t p = b)) ∧
  ∀ (cfg : Config) (p : Word), cfg.FtRange → cfg.fullScale = 32767#16 →
    0 ≤ fadeLookup cfg.fadeTable p ∧ fadeLookup cfg.fadeTable p ≤ 32767

/-- R96: under FT_SYM the amplitude at a phase and at its mirror image differ by at most one unit (an i16 table never
has a step of more than 65535), and are not always equal. -/
def Obligations.EnvelopeIsSymmetricWithinOne : Prop :=
  (∀ (cfg : Config) (p : Word), cfg.FtSym →
    let t := cfg.fadeTable
    let a := fadeEntry t (segmentIndex p).castSucc
    let d := fadeEntry t (segmentIndex p).succ - a
    fadeLookup t p = a + asr (d * (fraction p : Int)) 16 ∧
    fadeLookup t (0xFFFFFFFF#32 - p) = a + asr (d * ((fraction p : Int) + 1)) 16 ∧
    (fadeLookup t (0xFFFFFFFF#32 - p) - fadeLookup t p).natAbs ≤ 1) ∧
  ∃ (cfg : Config) (p : Word), cfg.FtSym ∧ cfg.FtRange ∧
    fadeLookup cfg.fadeTable (0xFFFFFFFF#32 - p) ≠ fadeLookup cfg.fadeTable p

/-- R93: FADE_ADVANCE saturates; n advances from p give `min(p + n * r, 0xFFFFFFFF)`. -/
def Obligations.FadePhaseSaturates : Prop :=
  (∀ p r : Word, (fadeAdvance p r).toNat = min (p.toNat + r.toNat) 0xFFFFFFFF) ∧
  (∀ r : Word, fadeAdvance 0xFFFFFFFF#32 r = 0xFFFFFFFF#32) ∧
  (∀ p : Word, fadeAdvance p 0#32 = p) ∧
  ∀ (p r : Word) (n : Nat), ((fun q => fadeAdvance q r)^[n] p).toNat = min (p.toNat + n * r.toNat) 0xFFFFFFFF

/-- R94: ENV_APPLY with the shift of 15: exact and floored for every i16 amplitude but one pair of operands; between
-32767 and 32766 for amplitudes of 0 to 32767; full scale is not quite unity. -/
def Obligations.EnvelopeApplyIsExact : Prop :=
  ∀ (s : Half) (amp : Int), -32768 ≤ amp → amp ≤ 32767 →
    (¬ (s.toInt = -32768 ∧ amp = -32768) → (envApply 15 s amp).toInt = s.toInt * amp / 32768) ∧
    (s.toInt = -32768 → amp = -32768 → (envApply 15 s amp).toInt = -32768) ∧
    (0 ≤ amp → -32767 ≤ (envApply 15 s amp).toInt ∧ (envApply 15 s amp).toInt ≤ 32766) ∧
    (amp = 0 → (envApply 15 s amp).toInt = 0) ∧
    (amp = 32767 → 0 < s.toInt → (envApply 15 s amp).toInt = s.toInt - 1) ∧
    (amp = 32767 → s.toInt = 0 → (envApply 15 s amp).toInt = 0) ∧
    (amp = 32767 → s.toInt < 0 → s.toInt ≠ -32768 → (envApply 15 s amp).toInt = s.toInt) ∧
    (amp = 32767 → s.toInt = -32768 → (envApply 15 s amp).toInt = -32767)

/-- R97, R98: with the rate of a segment of `len` native samples the phase does not saturate in the first `len` output
samples; for `len >= 3` it is in the plateau, with full amplitude, no later than the midpoint; for `len = 1` it is never
in it after sample 0 (the phase is the maximum). THE MODEL'S CHOICE (log 22): R92 leaves PLATEAU_LO a parameter, "roughly
64", and the statement is made for every PLATEAU_LO up to 85 (from 86 on it fails at `len = 3`); "before the midpoint" is
read as output sample n with `2 * n <= len`. -/
def Obligations.PlateauIsReachedBeforeTheMidpoint : Prop :=
  ∀ (cfg : Config) (len lo : Nat), 1 ≤ len → len < 2 ^ 24 →
    let rate := BitVec.ofNat 32 (0xFFFFFFFF / len)
    (∀ n ≤ len, (phaseAfter 0#32 rate n).toNat = n * (0xFFFFFFFF / len)) ∧
    (len = 1 → ∀ n, 1 ≤ n → phaseAfter 0#32 rate n = 0xFFFFFFFF#32) ∧
    (3 ≤ len → lo ≤ 85 → ∃ n, 2 * n ≤ len ∧ lo * 2 ^ 24 ≤ (phaseAfter 0#32 rate n).toNat ∧
      (phaseAfter 0#32 rate n).toNat ≤ (256 - lo) * 2 ^ 24 ∧
      (cfg.FtPlateau lo → fadeLookup cfg.fadeTable (phaseAfter 0#32 rate n) = cfg.fullScale.toInt))

/-- R142: the envelope of an interpolated grain ends early. From output sample `len + len / 256 + 1` on the phase is
saturated, and under FT_ENDS and FT_RANGE every sample is scaled to 0; for RATIO 2 and 4 that is inside the about
`RATIO * len` output samples of the grain. -/
def Obligations.EnvelopeEndsBeforeAnInterpolatedGrain : Prop :=
  ∀ (cfg : Config) (len n : Nat) (s : Half), 1 ≤ len → len < 2 ^ 24 → len + len / 256 + 1 ≤ n →
    phaseAfter 0#32 (BitVec.ofNat 32 (0xFFFFFFFF / len)) n = 0xFFFFFFFF#32 ∧
    (cfg.FtRange → cfg.FtEnds →
      envApply cfg.envShift s
        (fadeLookup cfg.fadeTable (phaseAfter 0#32 (BitVec.ofNat 32 (0xFFFFFFFF / len)) n)) = 0#16) ∧
    ∀ f : Fmt, 2 ≤ ratio f → 2 ≤ len → len + len / 256 + 1 < ratio f * len

/-! ### ASSIGN -/

/-- R131: ASSIGN's pseudocode on a null sample, a Playing voice, a missing header, an empty segment, and a segment of
at least one native sample of a recognised format. -/
def Obligations.AssignFollowsItsPseudocode : Prop :=
  ∀ (s : State) (v : Nat) (x : Voice) (st ln : Word), s.voices[v]? = some x →
    exec (.assign v none st ln) s = .next (s.setVoice v (x.respond (.status .rejNull))) ∧
    ∀ b : WordAddr, (encode (.assign v (some b) st ln)).code = [1#8] ∧
    (x.regs.playing = true →
      exec (.assign v (some b) st ln) s = .next (s.setVoice v (x.respond (.status .rejBusy)))) ∧
    (x.regs.playing = false → wordAt s.mem b = none → exec (.assign v (some b) st ln) s = .fault (.memFault b)) ∧
    ∀ (hdr : Word) (f : Fmt), x.regs.playing = false → wordAt s.mem b = some hdr →
      formatOf (headerCode hdr) = some f →
      let k := constOf s.cfg.kM2S (rateOf f)
      let flen := (headerCount hdr).toNat
      let start := min (st.toNat * k / 2 ^ 32) flen
      let len0 := ln.toNat * k / 2 ^ 32
      let len := if start + len0 > flen then flen - start else len0
      (len < 1 → exec (.assign v (some b) st ln) s = .next (s.setVoice v (x.respond (.status .rejLen)))) ∧
      (1 ≤ len → exec (.assign v (some b) st ln) s = .next (s.setVoice v
        { regs :=
            { playing := true, busy := true, fmt := headerCode hdr, base := b, fileLen := headerCount hdr,
              segStartW := BitVec.ofNat 32 (1 + start / spw f), cursor := 1 + start / spw f,
              segLen := BitVec.ofNat 24 len, segTotal := BitVec.ofNat 24 len, prior := 0#16, fadePos := 0#32,
              fadeRate := BitVec.ofNat 32 (0xFFFFFFFF / len) }
          port := { x.port with responses := .status .ok :: x.port.responses } }))

/-- R131: no value ASSIGN stores is cut by its register's width, and the rate is between 0x100 and 0xFFFFFFFF (R32). -/
def Obligations.AssignedValuesFitTheirRegisters : Prop :=
  ∀ (cfg : Config) (f : Fmt) (flen : Count) (st ln : Word), 1 ≤ segmentLen cfg f flen st ln →
    let start := segmentStart cfg f flen st
    let len := segmentLen cfg f flen st ln
    start + len ≤ flen.toNat ∧ start ≤ flen.toNat ∧
    (BitVec.ofNat 24 len).toNat = len ∧ (BitVec.ofNat 32 (1 + start / spw f)).toNat = 1 + start / spw f ∧
    (BitVec.ofNat 32 (0xFFFFFFFF / len)).toNat = 0xFFFFFFFF / len ∧ 0x100 ≤ 0xFFFFFFFF / len

/-- R132: an unrecognised code is accepted, whatever the times; the six registers it leaves unspecified hold free
values (log 8), of which nothing is stated; the next PRODUCE takes the decode fault. -/
def Obligations.AssignAcceptsAnUnrecognisedCode : Prop :=
  ∀ (s : State) (v : Nat) (x : Voice) (b : WordAddr) (st ln hdr : Word), s.voices[v]? = some x →
    x.regs.playing = false → wordAt s.mem b = some hdr → formatOf (headerCode hdr) = none →
    ∃ y : Voice, exec (.assign v (some b) st ln) s = .next (s.setVoice v y) ∧
      y.regs.fmt = headerCode hdr ∧ y.regs.base = b ∧ y.regs.fileLen = headerCount hdr ∧ y.regs.fadePos = 0#32 ∧
      y.regs.playing = true ∧ y.regs.busy = true ∧
      y.port.responses = .status .ok :: x.port.responses ∧ y.port.emitted = x.port.emitted ∧
      y.port.faults = x.port.faults ∧
      exec (.produce v) (s.setVoice v y) = .next (s.setVoice v
        { regs := { y.regs with playing := false, busy := false }
          port := { y.port with responses := .none :: y.port.responses,
                                faults := .decodeFault (headerCode hdr) :: y.port.faults } })

/-- R162: what the newest response to an ASSIGN says is what its operands and its voice say, and a rejection changes no
register and no other part of the machine. -/
def Obligations.RejectionsChangeNoRegister : Prop :=
  (statusCode .rejNull = 1#2 ∧ statusCode .rejBusy = 2#2 ∧ statusCode .rejLen = 3#2) ∧
  ∀ (s t : State) (v : Nat) (sample : Option WordAddr) (st ln : Word) (x y : Voice) (a : Status),
    exec (.assign v sample st ln) s = .next t → s.voices[v]? = some x → t.voices[v]? = some y →
    y.port.responses = .status a :: x.port.responses →
    (a = .rejNull ↔ sample = none) ∧ (a = .rejBusy ↔ sample ≠ none ∧ x.regs.playing = true) ∧
    (a = .rejLen ↔ ∃ b hdr f, sample = some b ∧ x.regs.playing = false ∧ wordAt s.mem b = some hdr ∧
      formatOf (headerCode hdr) = some f ∧ segmentLen s.cfg f (headerCount hdr) st ln < 1) ∧
    (a ≠ .ok → t = s.setVoice v { x with port := { x.port with responses := .status a :: x.port.responses } })

/-! ### PRODUCE -/

/-- R133, R134, R135: PRODUCE's pseudocode, in closed form: nothing on an Idle voice; the decode fault; MemFault at the
first missing word; else one frame of the words `ws`, output sample n of it scaled with the amplitude at phase
`min(fade_pos + n * fade_rate, 0xFFFFFFFF)`. -/
def Obligations.ProduceDecodesScalesAndEmitsOneFrame : Prop :=
  ∀ (s : State) (v : Nat) (x : Voice), s.cfg.wf → s.voices[v]? = some x →
    (encode (.produce v)).code = [2#8] ∧
    (x.regs.playing = false → exec (.produce v) s = .next (s.setVoice v (x.respond .none))) ∧
    (x.regs.playing = true → formatOf x.regs.fmt = none →
      exec (.produce v) s = .next (s.setVoice v
        { regs := { x.regs with playing := false, busy := false }
          port := { x.port with responses := .none :: x.port.responses,
                                faults := .decodeFault x.regs.fmt :: x.port.faults } })) ∧
    ∀ f, x.regs.playing = true → formatOf x.regs.fmt = some f →
      (hasWords s.mem x.regs.base (x.regs.cursor + wordsPerFrame s.cfg f) = false →
        ∃ k < wordsPerFrame s.cfg f,
          exec (.produce v) s = .fault (.memFault (x.regs.base + (x.regs.cursor + k))) ∧
          hasWords s.mem x.regs.base (x.regs.cursor + k + 1) = false ∧
          ∀ j < k, hasWords s.mem x.regs.base (x.regs.cursor + j + 1) = true) ∧
      ∀ ws : List Word, ws.length = wordsPerFrame s.cfg f →
        hasWords s.mem x.regs.base (x.regs.cursor + wordsPerFrame s.cfg f) = true →
        (∀ k < ws.length, wordAt s.mem (x.regs.base + (x.regs.cursor + k)) = ws[k]?) →
        let raw := rawOutputs s.cfg.ulawTable f ws x.regs.prior
        let frame := scaledFrame s.cfg x.regs.fadePos x.regs.fadeRate raw.1
        let c := s.cfg.frame / ratio f
        let r := { x.regs with
          cursor := x.regs.cursor + s.cfg.frame / opw f
          prior := raw.2
          fadePos := phaseAfter x.regs.fadePos x.regs.fadeRate s.cfg.frame }
        frame.length = s.cfg.frame ∧
        exec (.produce v) s = .next (s.setVoice v
          { regs := if c ≥ x.regs.segLen.toNat then { r with playing := false, busy := false }
                    else { r with segLen := BitVec.ofNat 24 (x.regs.segLen.toNat - c) }
            port := { x.port with responses := .frame frame :: x.port.responses,
                                  emitted := frame :: x.port.emitted } })

/-- R135: the grain is over when the frame has used up the segment; its last frame is emitted, and seg_len then keeps
its value; otherwise it is lowered by `c` and stays at least 1. -/
def Obligations.ExhaustionEndsTheGrain : Prop :=
  ∀ (s t : State) (v : Nat) (x y : Voice) (f : Fmt), s.voices[v]? = some x → t.voices[v]? = some y →
    x.regs.playing = true → formatOf x.regs.fmt = some f → exec (.produce v) s = .next t →
    let c := s.cfg.frame / ratio f
    (∃ frame, y.port.emitted = frame :: x.port.emitted ∧ y.port.responses = .frame frame :: x.port.responses) ∧
    (c ≥ x.regs.segLen.toNat →
      y.regs.playing = false ∧ y.regs.busy = false ∧ y.regs.segLen = x.regs.segLen ∧
      ∃ (u : State) (z : Voice), exec (.isPlaying v) t = .next u ∧ u.voices[v]? = some z ∧
        z.port.responses = .bit false :: y.port.responses) ∧
    (c < x.regs.segLen.toNat →
      y.regs.playing = true ∧ y.regs.busy = x.regs.busy ∧ y.regs.segLen.toNat = x.regs.segLen.toNat - c ∧
      1 ≤ y.regs.segLen.toNat)

/-- R143: a PRODUCE that emits a frame adds exactly `FRAME div OPW(fmt)` to the cursor; one that emits nothing leaves
it alone. -/
def Obligations.CursorAdvancesByWholeFrames : Prop :=
  (∀ (s t : State) (v : Nat) (x y : Voice), s.voices[v]? = some x → t.voices[v]? = some y →
    exec (.produce v) s = .next t →
    (y.port.emitted ≠ x.port.emitted →
      ∃ f, formatOf x.regs.fmt = some f ∧ y.regs.cursor = x.regs.cursor + s.cfg.frame / opw f) ∧
    (y.port.emitted = x.port.emitted → y.regs.cursor = x.regs.cursor)) ∧
  ∀ cfg : Config, cfg.frame = 128 →
    wordsPerFrame cfg .ulaw44 = 32 ∧ wordsPerFrame cfg .pcm44 = 64 ∧ wordsPerFrame cfg .ulaw22 = 16 ∧
    wordsPerFrame cfg .pcm22 = 32 ∧ wordsPerFrame cfg .ulaw11 = 8 ∧ wordsPerFrame cfg .pcm11 = 16

/-- R141: a grain accepted with a recognised format and `len` native samples is played by exactly `ceil(len / c)`
PRODUCEs that emit a frame of FRAME samples each, the last of which clears `playing`; after k of them (fewer)
`seg_len` is `len - k * c`. Premise: the words of the grain and its overrun exist (R58). -/
def Obligations.GrainTakesItsNumberOfFrames : Prop :=
  ∀ (s s' : State) (v : Nat) (b : WordAddr) (st ln : Word) (x y : Voice) (f : Fmt),
    s.cfg.wf → s.voices[v]? = some x → x.regs.playing = false →
    exec (.assign v (some b) st ln) s = .next s' → s'.voices[v]? = some y →
    y.regs.playing = true → formatOf y.regs.fmt = some f →
    let len := y.regs.segTotal.toNat
    let c := s.cfg.frame / ratio f
    let total := framesOfGrain s.cfg f len
    hasWords s.mem b (y.regs.cursor + total * wordsPerFrame s.cfg f) = true →
    1 ≤ total ∧ ratio f * len ≤ s.cfg.frame * total ∧
    ∀ k ≤ total, ∃ (t : State) (z : Voice), produceTimes v k s' = .next t ∧ t.voices[v]? = some z ∧
      (∃ frames : List (List Half), frames.length = k ∧ z.port.emitted = frames ++ y.port.emitted ∧
        ∀ fr ∈ frames, fr.length = s.cfg.frame) ∧
      (k < total → z.regs.playing = true ∧ z.regs.segLen.toNat = len - k * c) ∧
      (k = total → z.regs.playing = false ∧ z.regs.busy = false)

/-- R58, R27: under the invariant, the words a PRODUCE of a Playing voice needs lie below the offset R58 gives, and the
cursor stays within R27's bound. If the words below that offset exist, the PRODUCE completes, and it reads no other word:
over any memory `m` that holds the same words there it does the same. -/
def Obligations.ReadsStayWithinTheOverrun : Prop :=
  ∀ (s : State) (v : Nat) (x : Voice) (f : Fmt), s.Inv → s.voices[v]? = some x → x.regs.playing = true →
    formatOf x.regs.fmt = some f →
    let next := x.regs.cursor + s.cfg.frame / opw f
    let bound := x.regs.segStartW.toNat +
      framesOfGrain s.cfg f x.regs.segTotal.toNat * (nativesPerFrame s.cfg f / spw f)
    next ≤ bound ∧
    next ≤ 1 + (x.regs.fileLen.toNat + s.cfg.frame) / 2 ∧
    0x100 ≤ x.regs.fadeRate.toNat ∧ x.regs.segLen.toNat ≤ x.regs.segTotal.toNat ∧
    x.regs.segTotal.toNat ≤ x.regs.fileLen.toNat ∧
    (hasWords s.mem x.regs.base bound = true → ∀ m : List Host.Cell,
      (∀ off < bound, wordAt m (x.regs.base + off) = wordAt s.mem (x.regs.base + off)) →
      ∃ y : Voice, exec (.produce v) s = .next (s.setVoice v y) ∧
        exec (.produce v) { s with mem := m } = .next ({ s with mem := m }.setVoice v y))

/-! ### The queries -/

/-- R136: QUERY_POS always completes and only adds its response: 0 on an Idle voice or an unrecognised code, and straight
after an accepted ASSIGN; on a Playing voice of a recognised format, under the invariant and with the constants of R11
(R77), the exact scaled distance from the segment start. (Outside those premises the value is log 15's choice and nothing
is stated here.) -/
def Obligations.QueryPosAnswersElapsedTime : Prop :=
  ∀ (s : State) (v : Nat) (x : Voice), s.voices[v]? = some x →
    (encode (.queryPos v)).code = [3#8] ∧
    ((x.regs.playing = false ∨ formatOf x.regs.fmt = none) →
      exec (.queryPos v) s = .next (s.setVoice v (x.respond (.millis 0#32)))) ∧
    (∀ f, x.regs.playing = true → formatOf x.regs.fmt = some f →
      ∃ ms : Word, exec (.queryPos v) s = .next (s.setVoice v (x.respond (.millis ms))) ∧
        (s.Inv → s.cfg.kS2M = defaultS2M →
          let n : Int := ((x.regs.cursor : Int) - (x.regs.segStartW.toNat : Int)) * (spw f : Int)
          (ms.toNat : Int) = n * (constOf defaultS2M (rateOf f) : Int) / 2 ^ 32)) ∧
    ∀ (b : WordAddr) (st ln : Word) (t : State) (y : Voice), exec (.assign v (some b) st ln) s = .next t →
      t.voices[v]? = some y → y.port.responses = .status .ok :: x.port.responses →
      exec (.queryPos v) t = .next (t.setVoice v (y.respond (.millis 0#32)))

/-- R137: QUERY_LEN always completes and only adds its response: 0 on an Idle voice or an unrecognised code; on a Playing
voice of a recognised format, with the constants of R11, the exact scaled `seg_total`. (With other constants the value is
log 15's choice and nothing is stated here.) -/
def Obligations.QueryLenAnswersTotalTime : Prop :=
  ∀ (s : State) (v : Nat) (x : Voice), s.voices[v]? = some x →
    (encode (.queryLen v)).code = [4#8] ∧
    ((x.regs.playing = false ∨ formatOf x.regs.fmt = none) →
      exec (.queryLen v) s = .next (s.setVoice v (x.respond (.millis 0#32)))) ∧
    ∀ f, x.regs.playing = true → formatOf x.regs.fmt = some f →
      ∃ ms : Word, exec (.queryLen v) s = .next (s.setVoice v (x.respond (.millis ms))) ∧
        (s.cfg.kS2M = defaultS2M →
          ms.toNat = x.regs.segTotal.toNat * constOf defaultS2M (rateOf f) / 2 ^ 32)

/-- R77: with the constants of R11 a scaled count of up to 32 bits fits the u32 response, exactly. THE MODEL'S CHOICE
(log 15): whatever the constants and the sign, the response is the low 32 bits of the exact scaled integer. -/
def Obligations.ScaledTimesFitTheResponse : Prop :=
  (∀ (cfg : Config) (f : Fmt) (n : Nat), cfg.kS2M = defaultS2M → n < 2 ^ 32 →
    (nativeToMs cfg f (n : Int)).toNat = n * constOf defaultS2M (rateOf f) / 2 ^ 32) ∧
  ∀ (s : State) (v : Nat) (x : Voice) (f : Fmt), s.voices[v]? = some x → x.regs.playing = true →
    formatOf x.regs.fmt = some f →
    let k : Int := (constOf s.cfg.kS2M (rateOf f) : Int)
    let n : Int := ((x.regs.cursor : Int) - (x.regs.segStartW.toNat : Int)) * (spw f : Int)
    exec (.queryPos v) s = .next (s.setVoice v (x.respond (.millis (BitVec.ofInt 32 (n * k / 2 ^ 32))))) ∧
    exec (.queryLen v) s =
      .next (s.setVoice v (x.respond (.millis (BitVec.ofInt 32 ((x.regs.segTotal.toNat : Int) * k / 2 ^ 32)))))

/-- R138: IS_PLAYING responds `x[playing]`; nothing else changes; and no instruction of either layer changes that flag but
an ASSIGN that is accepted (to 1) and a PRODUCE that ends the grain or meets an unrecognised format (to 0). -/
def Obligations.IsPlayingAnswersTheFlag : Prop :=
  ∀ (s : State) (v : Nat) (x : Voice), s.voices[v]? = some x →
    (encode (.isPlaying v)).code = [5#8] ∧
    exec (.isPlaying v) s = .next (s.setVoice v
      { x with port := { x.port with responses := .bit x.regs.playing :: x.port.responses } }) ∧
    ∀ (i : Instr) (t : State) (y : Voice), exec i s = .next t →
      t.voices[v]? = some y → y.regs.playing ≠ x.regs.playing →
      (y.regs.playing = true ∧ (∃ b st ln, i = .assign v (some b) st ln) ∧
        y.port.responses = .status .ok :: x.port.responses) ∨
      (y.regs.playing = false ∧ i = .produce v ∧
        ((∃ f, formatOf x.regs.fmt = some f ∧ x.regs.segLen.toNat ≤ s.cfg.frame / ratio f) ∨
          formatOf x.regs.fmt = none))

/-- R139: IS_BUSY responds `x[busy]`; nothing else changes; under the invariant the answer is that of IS_PLAYING. -/
def Obligations.IsBusyAnswersTheFlag : Prop :=
  ∀ (s : State) (v : Nat) (x : Voice), s.voices[v]? = some x →
    (encode (.isBusy v)).code = [6#8] ∧
    exec (.isBusy v) s = .next (s.setVoice v
      { x with port := { x.port with responses := .bit x.regs.busy :: x.port.responses } }) ∧
    (s.Inv → x.regs.busy = x.regs.playing)

/-! ### Rules of the whole machine -/

/-- Frame of every instruction (R176, R55): only the voice it names changes; every byte of memory, the configuration,
the queues and every other voice are as before. -/
def Obligations.OnlyTheNamedVoiceChanges : Prop :=
  ∀ (i : Instr) (s t : State), exec i s = .next t →
    t.cfg = s.cfg ∧ t.control = s.control ∧ t.production = s.production ∧ t.resetLine = s.resetLine ∧
    t.turns = s.turns ∧ t.voices.length = s.voices.length ∧ i.voice < s.voices.length ∧
    (∀ a, byteAt t.mem a = byteAt s.mem a) ∧
    ∀ v, v ≠ i.voice → t.voices[v]? = s.voices[v]?

/-- Frame of the named voice: the header-layer rows and the four queries write no register; PRODUCE writes no register
but `cursor`, `seg_len`, `prior`, `fade_pos` and the flags (R133, R37); only PRODUCE emits or logs. -/
def Obligations.RegistersEachInstructionMayWrite : Prop :=
  ∀ (s t : State) (v : Nat) (x y : Voice), s.voices[v]? = some x → t.voices[v]? = some y →
    (∀ (c : Byte) (n : Count) (d : DecodeOperands), d.voice = v →
      exec (.decUlaw44 n d) s = .next t ∨ exec (.decPcm44 n d) s = .next t ∨ exec (.decUlaw22 n d) s = .next t ∨
      exec (.decPcm22 n d) s = .next t ∨ exec (.decUlaw11 n d) s = .next t ∨ exec (.decPcm11 n d) s = .next t ∨
      exec (.decUnrecognised c n d) s = .next t →
      y.regs = x.regs ∧ y.port.emitted = x.port.emitted ∧ y.port.faults = x.port.faults) ∧
    (exec (.queryPos v) s = .next t ∨ exec (.queryLen v) s = .next t ∨ exec (.isPlaying v) s = .next t ∨
      exec (.isBusy v) s = .next t →
      y.regs = x.regs ∧ y.port.emitted = x.port.emitted ∧ y.port.faults = x.port.faults) ∧
    (exec (.produce v) s = .next t →
      y.regs = { x.regs with
        playing := y.regs.playing, busy := y.regs.busy, cursor := y.regs.cursor, segLen := y.regs.segLen,
        prior := y.regs.prior, fadePos := y.regs.fadePos }) ∧
    ∀ sample st ln, exec (.assign v sample st ln) s = .next t →
      y.port.emitted = x.port.emitted ∧ y.port.faults = x.port.faults ∧ (y.regs.playing = false → y.regs = x.regs)

/-- R130: the only transitions between Idle and Playing, over all instructions of both layers. A voice starts to play only
by an ASSIGN accepted for it, and stops only by a PRODUCE that exhausts its segment or meets an unrecognised code; so
nothing stops a Playing voice from outside (R187). -/
def Obligations.OnlyTheseEventsStartOrStopAVoice : Prop :=
  ∀ (i : Instr) (s t : State) (v : Nat) (x y : Voice), exec i s = .next t →
    s.voices[v]? = some x → t.voices[v]? = some y →
    (x.regs.playing = false → y.regs.playing = true →
      (∃ b st ln, i = .assign v (some b) st ln) ∧ y.port.responses = .status .ok :: x.port.responses) ∧
    (x.regs.playing = true → y.regs.playing = false → i = .produce v ∧
      ((∃ f, formatOf x.regs.fmt = some f ∧ x.regs.segLen.toNat ≤ s.cfg.frame / ratio f) ∨
        (formatOf x.regs.fmt = none ∧ y.port.faults = .decodeFault x.regs.fmt :: x.port.faults)))

/-- R31, R32, R140: while a voice plays, no instruction lowers its phase or changes its format, its segment or its
rate. -/
def Obligations.PlayingGrainKeepsItsParameters : Prop :=
  ∀ (i : Instr) (s t : State) (v : Nat) (x y : Voice), exec i s = .next t →
    s.voices[v]? = some x → t.voices[v]? = some y → x.regs.playing = true →
    x.regs.fadePos.toNat ≤ y.regs.fadePos.toNat ∧ x.regs.cursor ≤ y.regs.cursor ∧
    y.regs.fadeRate = x.regs.fadeRate ∧ y.regs.fmt = x.regs.fmt ∧ y.regs.base = x.regs.base ∧
    y.regs.fileLen = x.regs.fileLen ∧ y.regs.segStartW = x.regs.segStartW ∧ y.regs.segTotal = x.regs.segTotal

/-- R176: commands to different voices commute: both orders give the same state. -/
def Obligations.DifferentVoicesCommute : Prop :=
  ∀ (i j : Instr) (s t u : State), i.voice ≠ j.voice → exec i s = .next t → exec j t = .next u →
    ∃ t', exec j s = .next t' ∧ exec i t' = .next u

/-- R163, R164, R166: an instruction for an existing voice always completes, but for ASSIGN on an Idle voice whose
header word is missing and PRODUCE on a Playing voice of a recognised format one of whose words is missing. -/
def Obligations.OnlyMissingWordsStopAnInstruction : Prop :=
  ∀ (i : Instr) (s : State) (x : Voice), s.voices[i.voice]? = some x →
    (∃ t, exec i s = .next t) ∨
    (∃ v b st ln, i = .assign v (some b) st ln ∧ x.regs.playing = false ∧ wordAt s.mem b = none ∧
      exec i s = .fault (.memFault b)) ∨
    (∃ v f k, i = .produce v ∧ x.regs.playing = true ∧ formatOf x.regs.fmt = some f ∧ k < wordsPerFrame s.cfg f ∧
      hasWords s.mem x.regs.base (x.regs.cursor + k + 1) = false ∧
      exec i s = .fault (.memFault (x.regs.base + (x.regs.cursor + k))))

/-- R52: a word the platform places reads back, byte by byte little-endian, and every other word is as before. -/
def Obligations.PlacedWordsReadBack : Prop :=
  ∀ (m : List Host.Cell) (a : Nat) (w : Word),
    wordAt (writeWord m a w) a = some w ∧
    byteAt (writeWord m a w) (4 * a) = some (w.extractLsb' 0 8) ∧
    byteAt (writeWord m a w) (4 * a + 3) = some (w.extractLsb' 24 8) ∧
    ∀ b : Nat, b ≠ a → wordAt (writeWord m a w) b = wordAt m b

/-- R11: the default constants are the floors the rule gives. -/
def Obligations.DefaultConstantsAreTheFloors : Prop :=
  ∀ r : Rate,
    let hz := match r with
      | .r44100 => 44100
      | .r22050 => 22050
      | .r11025 => 11025
    constOf defaultM2S r = 2 ^ 32 * hz / 1000 ∧ constOf defaultS2M r = 2 ^ 32 * 1000 / hz ∧
    State.reset.cfg.kM2S = defaultM2S ∧ State.reset.cfg.kS2M = defaultS2M

/-- R188: a finished run has every command answered and no fault in the log; it has no step of its own to take, even with
a voice still Playing; and it has finished its grains exactly if moreover every voice answers 0 to IS_PLAYING. Both occur:
a finished run with a voice Playing, and one whose grains are finished. -/
def Obligations.FinishedRunsAreThoseThatAnswered : Prop :=
  (∀ s : State, s.resetLine = false → s.Finished → step s = .next s) ∧
  (∀ s : State, s.FinishedGrains ↔ s.Finished ∧ ∀ (v : Nat) (x : Voice), s.voices[v]? = some x →
    exec (.isPlaying v) s = .next (s.setVoice v (x.respond (.bit false)))) ∧
  (∃ (s : State) (x : Voice), s.Finished ∧ x ∈ s.voices ∧ x.regs.playing = true) ∧ State.reset.FinishedGrains
end

