-- ==== Sys2Proof/Laws/State.lean ====
section
/-! SUPPORT. One lemma per field per update of the state, a voice, a port and a voice's registers, each true by rfl,
so that no later proof unfolds a record update. -/

namespace Sys2Proof.Machine

/-! ### Voices -/

@[simp] theorem Voice.withRegs_regs (x : Voice) (r : VoiceRegs) : (x.withRegs r).regs = r := rfl
@[simp] theorem Voice.withRegs_port (x : Voice) (r : VoiceRegs) : (x.withRegs r).port = x.port := rfl
@[simp] theorem Voice.respond_regs (x : Voice) (a : Response) : (x.respond a).regs = x.regs := rfl
@[simp] theorem Voice.respond_responses (x : Voice) (a : Response) : (x.respond a).port.responses = a :: x.port.responses := rfl
@[simp] theorem Voice.respond_emitted (x : Voice) (a : Response) : (x.respond a).port.emitted = x.port.emitted := rfl
@[simp] theorem Voice.respond_faults (x : Voice) (a : Response) : (x.respond a).port.faults = x.port.faults := rfl
@[simp] theorem Voice.respond_draws (x : Voice) (a : Response) : (x.respond a).port.draws = x.port.draws := rfl
@[simp] theorem Voice.emit_regs (x : Voice) (frame : List Half) : (x.emit frame).regs = x.regs := rfl
@[simp] theorem Voice.emit_responses (x : Voice) (frame : List Half) : (x.emit frame).port.responses = x.port.responses := rfl
@[simp] theorem Voice.emit_emitted (x : Voice) (frame : List Half) : (x.emit frame).port.emitted = frame :: x.port.emitted := rfl
@[simp] theorem Voice.emit_faults (x : Voice) (frame : List Half) : (x.emit frame).port.faults = x.port.faults := rfl
@[simp] theorem Voice.emit_draws (x : Voice) (frame : List Half) : (x.emit frame).port.draws = x.port.draws := rfl
@[simp] theorem Voice.logFault_regs (x : Voice) (e : LocalFault) : (x.logFault e).regs = x.regs := rfl
@[simp] theorem Voice.logFault_responses (x : Voice) (e : LocalFault) : (x.logFault e).port.responses = x.port.responses := rfl
@[simp] theorem Voice.logFault_emitted (x : Voice) (e : LocalFault) : (x.logFault e).port.emitted = x.port.emitted := rfl
@[simp] theorem Voice.logFault_faults (x : Voice) (e : LocalFault) : (x.logFault e).port.faults = e :: x.port.faults := rfl
@[simp] theorem Voice.logFault_draws (x : Voice) (e : LocalFault) : (x.logFault e).port.draws = x.port.draws := rfl
@[simp] theorem Voice.drawn_regs (x : Voice) (n : Nat) : (x.drawn n).regs = x.regs := rfl
@[simp] theorem Voice.drawn_responses (x : Voice) (n : Nat) : (x.drawn n).port.responses = x.port.responses := rfl
@[simp] theorem Voice.drawn_emitted (x : Voice) (n : Nat) : (x.drawn n).port.emitted = x.port.emitted := rfl
@[simp] theorem Voice.drawn_faults (x : Voice) (n : Nat) : (x.drawn n).port.faults = x.port.faults := rfl
@[simp] theorem Voice.drawn_draws (x : Voice) (n : Nat) : (x.drawn n).port.draws = x.port.draws + n := rfl

/-! ### Taking a decode fault -/

@[simp] theorem takeDecodeFault_regs (c : Byte) (x : Voice) : (takeDecodeFault c x).regs = clearFlags x.regs := rfl
@[simp] theorem takeDecodeFault_responses (c : Byte) (x : Voice) : (takeDecodeFault c x).port.responses = .none :: x.port.responses := rfl
@[simp] theorem takeDecodeFault_emitted (c : Byte) (x : Voice) : (takeDecodeFault c x).port.emitted = x.port.emitted := rfl
@[simp] theorem takeDecodeFault_faults (c : Byte) (x : Voice) : (takeDecodeFault c x).port.faults = .decodeFault c :: x.port.faults := rfl
@[simp] theorem takeDecodeFault_draws (c : Byte) (x : Voice) : (takeDecodeFault c x).port.draws = x.port.draws := rfl

/-! ### Flags -/

@[simp] theorem setFlags_playing (x : VoiceRegs) : (setFlags x).playing = true := rfl
@[simp] theorem setFlags_busy (x : VoiceRegs) : (setFlags x).busy = true := rfl
@[simp] theorem setFlags_fmt (x : VoiceRegs) : (setFlags x).fmt = x.fmt := rfl
@[simp] theorem setFlags_base (x : VoiceRegs) : (setFlags x).base = x.base := rfl
@[simp] theorem setFlags_fileLen (x : VoiceRegs) : (setFlags x).fileLen = x.fileLen := rfl
@[simp] theorem setFlags_segStartW (x : VoiceRegs) : (setFlags x).segStartW = x.segStartW := rfl
@[simp] theorem setFlags_cursor (x : VoiceRegs) : (setFlags x).cursor = x.cursor := rfl
@[simp] theorem setFlags_segLen (x : VoiceRegs) : (setFlags x).segLen = x.segLen := rfl
@[simp] theorem setFlags_segTotal (x : VoiceRegs) : (setFlags x).segTotal = x.segTotal := rfl
@[simp] theorem setFlags_prior (x : VoiceRegs) : (setFlags x).prior = x.prior := rfl
@[simp] theorem setFlags_fadePos (x : VoiceRegs) : (setFlags x).fadePos = x.fadePos := rfl
@[simp] theorem setFlags_fadeRate (x : VoiceRegs) : (setFlags x).fadeRate = x.fadeRate := rfl
@[simp] theorem clearFlags_playing (x : VoiceRegs) : (clearFlags x).playing = false := rfl
@[simp] theorem clearFlags_busy (x : VoiceRegs) : (clearFlags x).busy = false := rfl
@[simp] theorem clearFlags_fmt (x : VoiceRegs) : (clearFlags x).fmt = x.fmt := rfl
@[simp] theorem clearFlags_base (x : VoiceRegs) : (clearFlags x).base = x.base := rfl
@[simp] theorem clearFlags_fileLen (x : VoiceRegs) : (clearFlags x).fileLen = x.fileLen := rfl
@[simp] theorem clearFlags_segStartW (x : VoiceRegs) : (clearFlags x).segStartW = x.segStartW := rfl
@[simp] theorem clearFlags_cursor (x : VoiceRegs) : (clearFlags x).cursor = x.cursor := rfl
@[simp] theorem clearFlags_segLen (x : VoiceRegs) : (clearFlags x).segLen = x.segLen := rfl
@[simp] theorem clearFlags_segTotal (x : VoiceRegs) : (clearFlags x).segTotal = x.segTotal := rfl
@[simp] theorem clearFlags_prior (x : VoiceRegs) : (clearFlags x).prior = x.prior := rfl
@[simp] theorem clearFlags_fadePos (x : VoiceRegs) : (clearFlags x).fadePos = x.fadePos := rfl
@[simp] theorem clearFlags_fadeRate (x : VoiceRegs) : (clearFlags x).fadeRate = x.fadeRate := rfl

/-! ### Starting a grain -/

@[simp] theorem startGrain_playing (base : WordAddr) (f : Fmt) (n : Count) (start len : Nat) (x : VoiceRegs) : (startGrain base f n start len x).playing = true := rfl
@[simp] theorem startGrain_busy (base : WordAddr) (f : Fmt) (n : Count) (start len : Nat) (x : VoiceRegs) : (startGrain base f n start len x).busy = true := rfl
@[simp] theorem startGrain_fmt (base : WordAddr) (f : Fmt) (n : Count) (start len : Nat) (x : VoiceRegs) : (startGrain base f n start len x).fmt = formatCode f := rfl
@[simp] theorem startGrain_base (base : WordAddr) (f : Fmt) (n : Count) (start len : Nat) (x : VoiceRegs) : (startGrain base f n start len x).base = base := rfl
@[simp] theorem startGrain_fileLen (base : WordAddr) (f : Fmt) (n : Count) (start len : Nat) (x : VoiceRegs) : (startGrain base f n start len x).fileLen = n := rfl
@[simp] theorem startGrain_segStartW (base : WordAddr) (f : Fmt) (n : Count) (start len : Nat) (x : VoiceRegs) : (startGrain base f n start len x).segStartW = BitVec.ofNat 32 (1 + start / spw f) := rfl
@[simp] theorem startGrain_cursor (base : WordAddr) (f : Fmt) (n : Count) (start len : Nat) (x : VoiceRegs) : (startGrain base f n start len x).cursor = (BitVec.ofNat 32 (1 + start / spw f)).toNat := rfl
@[simp] theorem startGrain_segLen (base : WordAddr) (f : Fmt) (n : Count) (start len : Nat) (x : VoiceRegs) : (startGrain base f n start len x).segLen = BitVec.ofNat 24 len := rfl
@[simp] theorem startGrain_segTotal (base : WordAddr) (f : Fmt) (n : Count) (start len : Nat) (x : VoiceRegs) : (startGrain base f n start len x).segTotal = BitVec.ofNat 24 len := rfl
@[simp] theorem startGrain_prior (base : WordAddr) (f : Fmt) (n : Count) (start len : Nat) (x : VoiceRegs) : (startGrain base f n start len x).prior = 0#16 := rfl
@[simp] theorem startGrain_fadePos (base : WordAddr) (f : Fmt) (n : Count) (start len : Nat) (x : VoiceRegs) : (startGrain base f n start len x).fadePos = 0#32 := rfl
@[simp] theorem startGrain_fadeRate (base : WordAddr) (f : Fmt) (n : Count) (start len : Nat) (x : VoiceRegs) : (startGrain base f n start len x).fadeRate = BitVec.ofNat 32 (0xFFFFFFFF / len) := rfl

/-! ### One payload word -/

@[simp] theorem afterWord_playing (cfg : Config) (f : Fmt) (w : Word) (x : VoiceRegs) : (afterWord cfg f w x).playing = x.playing := rfl
@[simp] theorem afterWord_busy (cfg : Config) (f : Fmt) (w : Word) (x : VoiceRegs) : (afterWord cfg f w x).busy = x.busy := rfl
@[simp] theorem afterWord_fmt (cfg : Config) (f : Fmt) (w : Word) (x : VoiceRegs) : (afterWord cfg f w x).fmt = x.fmt := rfl
@[simp] theorem afterWord_base (cfg : Config) (f : Fmt) (w : Word) (x : VoiceRegs) : (afterWord cfg f w x).base = x.base := rfl
@[simp] theorem afterWord_fileLen (cfg : Config) (f : Fmt) (w : Word) (x : VoiceRegs) : (afterWord cfg f w x).fileLen = x.fileLen := rfl
@[simp] theorem afterWord_segStartW (cfg : Config) (f : Fmt) (w : Word) (x : VoiceRegs) : (afterWord cfg f w x).segStartW = x.segStartW := rfl
@[simp] theorem afterWord_cursor (cfg : Config) (f : Fmt) (w : Word) (x : VoiceRegs) : (afterWord cfg f w x).cursor = x.cursor + 1 := rfl
@[simp] theorem afterWord_segLen (cfg : Config) (f : Fmt) (w : Word) (x : VoiceRegs) : (afterWord cfg f w x).segLen = x.segLen := rfl
@[simp] theorem afterWord_segTotal (cfg : Config) (f : Fmt) (w : Word) (x : VoiceRegs) : (afterWord cfg f w x).segTotal = x.segTotal := rfl
@[simp] theorem afterWord_prior (cfg : Config) (f : Fmt) (w : Word) (x : VoiceRegs) : (afterWord cfg f w x).prior = (wordRaw cfg f w x).2 := rfl
@[simp] theorem afterWord_fadePos (cfg : Config) (f : Fmt) (w : Word) (x : VoiceRegs) : (afterWord cfg f w x).fadePos = (scaleAll cfg x.fadeRate x.fadePos (wordRaw cfg f w x).1).2 := rfl
@[simp] theorem afterWord_fadeRate (cfg : Config) (f : Fmt) (w : Word) (x : VoiceRegs) : (afterWord cfg f w x).fadeRate = x.fadeRate := rfl

/-! ### The machine -/

@[simp] theorem setVoice_cfg (s : State) (v : Nat) (x : Voice) : (s.setVoice v x).cfg = s.cfg := rfl
@[simp] theorem setVoice_mem (s : State) (v : Nat) (x : Voice) : (s.setVoice v x).mem = s.mem := rfl
@[simp] theorem setVoice_voices (s : State) (v : Nat) (x : Voice) : (s.setVoice v x).voices = s.voices.set v x := rfl
@[simp] theorem setVoice_control (s : State) (v : Nat) (x : Voice) : (s.setVoice v x).control = s.control := rfl
@[simp] theorem setVoice_production (s : State) (v : Nat) (x : Voice) : (s.setVoice v x).production = s.production := rfl
@[simp] theorem setVoice_resetLine (s : State) (v : Nat) (x : Voice) : (s.setVoice v x).resetLine = s.resetLine := rfl
@[simp] theorem setVoice_turns (s : State) (v : Nat) (x : Voice) : (s.setVoice v x).turns = s.turns := rfl
@[simp] theorem issueControl_cfg (s : State) (r : Request) : (s.issueControl r).cfg = s.cfg := rfl
@[simp] theorem issueControl_mem (s : State) (r : Request) : (s.issueControl r).mem = s.mem := rfl
@[simp] theorem issueControl_voices (s : State) (r : Request) : (s.issueControl r).voices = s.voices := rfl
@[simp] theorem issueControl_control (s : State) (r : Request) : (s.issueControl r).control = s.control ++ [r] := rfl
@[simp] theorem issueControl_production (s : State) (r : Request) : (s.issueControl r).production = s.production := rfl
@[simp] theorem issueControl_resetLine (s : State) (r : Request) : (s.issueControl r).resetLine = s.resetLine := rfl
@[simp] theorem issueControl_turns (s : State) (r : Request) : (s.issueControl r).turns = s.turns := rfl
@[simp] theorem issueProduction_cfg (s : State) (r : Request) : (s.issueProduction r).cfg = s.cfg := rfl
@[simp] theorem issueProduction_mem (s : State) (r : Request) : (s.issueProduction r).mem = s.mem := rfl
@[simp] theorem issueProduction_voices (s : State) (r : Request) : (s.issueProduction r).voices = s.voices := rfl
@[simp] theorem issueProduction_control (s : State) (r : Request) : (s.issueProduction r).control = s.control := rfl
@[simp] theorem issueProduction_production (s : State) (r : Request) : (s.issueProduction r).production = s.production ++ [r] := rfl
@[simp] theorem issueProduction_resetLine (s : State) (r : Request) : (s.issueProduction r).resetLine = s.resetLine := rfl
@[simp] theorem issueProduction_turns (s : State) (r : Request) : (s.issueProduction r).turns = s.turns := rfl
@[simp] theorem withoutRequest_cfg (s : State) (k : Nat) : (s.withoutRequest k).cfg = s.cfg := rfl
@[simp] theorem withoutRequest_mem (s : State) (k : Nat) : (s.withoutRequest k).mem = s.mem := rfl
@[simp] theorem withoutRequest_voices (s : State) (k : Nat) : (s.withoutRequest k).voices = s.voices := rfl
@[simp] theorem withoutRequest_control (s : State) (k : Nat) : (s.withoutRequest k).control = s.control.eraseIdx k := rfl
theorem withoutRequest_production (s : State) (k : Nat) : (s.withoutRequest k).production = if k < s.control.length then s.production else s.production.eraseIdx (k - s.control.length) := rfl
theorem withoutRequest_turns (s : State) (k : Nat) : (s.withoutRequest k).turns = if s.outstanding.length ≤ 1 then s.turns else s.turns + 1 := rfl
@[simp] theorem withoutRequest_resetLine (s : State) (k : Nat) : (s.withoutRequest k).resetLine = s.resetLine := rfl
@[simp] theorem askReset_cfg (s : State) : s.askReset.cfg = s.cfg := rfl
@[simp] theorem askReset_mem (s : State) : s.askReset.mem = s.mem := rfl
@[simp] theorem askReset_voices (s : State) : s.askReset.voices = s.voices := rfl
@[simp] theorem askReset_control (s : State) : s.askReset.control = s.control := rfl
@[simp] theorem askReset_production (s : State) : s.askReset.production = s.production := rfl
@[simp] theorem askReset_resetLine (s : State) : s.askReset.resetLine = true := rfl
@[simp] theorem askReset_turns (s : State) : s.askReset.turns = s.turns := rfl
@[simp] theorem applyReset_cfg (s : State) : (applyReset s).cfg = s.cfg := rfl
@[simp] theorem applyReset_mem (s : State) : (applyReset s).mem = s.mem := rfl
@[simp] theorem applyReset_voices (s : State) : (applyReset s).voices = resetVoices 0 s.voices := rfl
@[simp] theorem applyReset_control (s : State) : (applyReset s).control = s.control := rfl
@[simp] theorem applyReset_production (s : State) : (applyReset s).production = s.production := rfl
@[simp] theorem applyReset_resetLine (s : State) : (applyReset s).resetLine = false := rfl
@[simp] theorem applyReset_turns (s : State) : (applyReset s).turns = s.turns := rfl
@[simp] theorem withFetchWord_cfg (s : State) (nbits w : Nat) : (s.withFetchWord nbits w).cfg = s.cfg := rfl
@[simp] theorem withFetchWord_mem (s : State) (nbits w : Nat) : (s.withFetchWord nbits w).mem = s.mem := rfl
@[simp] theorem withFetchWord_voices (s : State) (nbits w : Nat) : (s.withFetchWord nbits w).voices = s.voices := rfl
@[simp] theorem withFetchWord_control (s : State) (nbits w : Nat) : (s.withFetchWord nbits w).control = [tableRequest nbits w] := rfl
@[simp] theorem withFetchWord_production (s : State) (nbits w : Nat) : (s.withFetchWord nbits w).production = [] := rfl
@[simp] theorem withFetchWord_resetLine (s : State) (nbits w : Nat) : (s.withFetchWord nbits w).resetLine = false := rfl
@[simp] theorem withFetchWord_turns (s : State) (nbits w : Nat) : (s.withFetchWord nbits w).turns = s.turns := rfl

end Sys2Proof.Machine
end

