-- ==== Sys2Proof/Laws/Exec.lean ====
section
/-! SUPPORT. What routing, execution and a step can do, said once: an instruction is an action of the one voice it
names, and a step is a reset, a wait, or the execution of one request. -/

namespace Sys2Proof.Machine

/-- The action of an instruction on its own voice: it depends on the configuration and the memory, and on no other
voice (60_exceptions.md R176). -/
def voiceAct (cfg : Config) (m : List Host.Cell) : Instr → Voice → Except Fault Voice
  | .decUlaw44 _ d => answerDecode (decUlaw44 cfg.ulawTable d.word d.prior)
  | .decPcm44 _ d => answerDecode (decPcm44 cfg.ulawTable d.word d.prior)
  | .decUlaw22 _ d => answerDecode (decUlaw22 cfg.ulawTable d.word d.prior)
  | .decPcm22 _ d => answerDecode (decPcm22 cfg.ulawTable d.word d.prior)
  | .decUlaw11 _ d => answerDecode (decUlaw11 cfg.ulawTable d.word d.prior)
  | .decPcm11 _ d => answerDecode (decPcm11 cfg.ulawTable d.word d.prior)
  | .decUnrecognised _ _ _ => answerNoOperation
  | .assign v sample startMs lengthMs => assignVoice cfg m v sample startMs lengthMs
  | .produce _ => produceVoice cfg m
  | .queryPos _ => fun x => .ok (x.respond (.millis (positionMs cfg x.regs)))
  | .queryLen _ => fun x => .ok (x.respond (.millis (lengthMs cfg x.regs)))
  | .isPlaying _ => fun x => .ok (x.respond (.bit x.regs.playing))
  | .isBusy _ => fun x => .ok (x.respond (.bit x.regs.busy))

/-- Every instruction is the action of its own voice. -/
theorem exec_eq_onVoice (i : Instr) (s : State) : exec i s = onVoice i.voice s (voiceAct s.cfg s.mem i) := by
  cases i <;> rfl

/-- Everything `onVoice` can answer. -/
theorem onVoice_cases (v : Nat) (s : State) (act : Voice → Except Fault Voice) :
    (s.voices[v]? = none ∧ onVoice v s act = .refused (.noSuchVoice v)) ∨
    (∃ x x', s.voices[v]? = some x ∧ act x = .ok x' ∧ onVoice v s act = .next (s.setVoice v x')) ∨
    (∃ x e, s.voices[v]? = some x ∧ act x = .error e ∧ onVoice v s act = .fault e) := by
  unfold onVoice
  cases hv : s.voices[v]? with
  | none => exact .inl ⟨rfl, rfl⟩
  | some x =>
    cases ha : act x with
    | ok x' => exact .inr (.inl ⟨x, x', rfl, ha, by simp [ha]⟩)
    | error e => exact .inr (.inr ⟨x, e, rfl, ha, by simp [ha]⟩)

/-- A voice that exists and an action that succeeds give a next state. -/
theorem onVoice_ok {v : Nat} {s : State} {act : Voice → Except Fault Voice} {x x' : Voice}
    (hv : s.voices[v]? = some x) (ha : act x = .ok x') : onVoice v s act = .next (s.setVoice v x') := by
  simp [onVoice, hv, ha]

/-- Inversion of `onVoice` at a next state. -/
theorem onVoice_next {v : Nat} {s t : State} {act : Voice → Except Fault Voice} (h : onVoice v s act = .next t) :
    ∃ x x', s.voices[v]? = some x ∧ act x = .ok x' ∧ t = s.setVoice v x' := by
  rcases onVoice_cases v s act with ⟨_, h'⟩ | ⟨x, x', hv, ha, h'⟩ | ⟨x, e, _, _, h'⟩ <;> rw [h'] at h
  · simp at h
  · exact ⟨x, x', hv, ha, by simpa using h.symm⟩
  · simp at h

/-- Inversion of `exec` at a next state: one voice acted, and only it changed. -/
theorem exec_next {i : Instr} {s t : State} (h : exec i s = .next t) :
    ∃ x x', s.voices[i.voice]? = some x ∧ voiceAct s.cfg s.mem i x = .ok x' ∧ t = s.setVoice i.voice x' :=
  onVoice_next (exec_eq_onVoice i s ▸ h)

/-- The index served names an outstanding request wherever there is one. -/
theorem servedIndex_lt {s : State} (h : s.outstanding ≠ []) : servedIndex s < s.outstanding.length := by
  have h := List.length_pos_iff.mpr h
  unfold servedIndex
  split
  · exact h
  · exact Nat.mod_lt _ h

/-- Nothing is served exactly where nothing is outstanding. -/
theorem nextRequest_none_iff (s : State) : nextRequest s = none ↔ s.outstanding = [] := by
  constructor
  · intro h
    by_contra hne
    simp [nextRequest, List.getElem?_eq_getElem (servedIndex_lt hne)] at h
  · intro h
    simp [nextRequest, h]

/-- A request outstanding alone is the one served. -/
theorem nextRequest_single {s : State} {r : Request} (h : s.outstanding = [r]) :
    nextRequest s = some (r, { s with control := [], production := [] }) := by
  have hi : servedIndex s = 0 := by simp [servedIndex, h]
  rcases List.append_eq_singleton_iff.mp h with ⟨hc, hp⟩ | ⟨hc, hp⟩ <;>
    simp [nextRequest, hi, h, State.withoutRequest, hc, hp]

/-- What taking the next request can do: it takes one request off one of the two lists and touches nothing else but
the turn counter. -/
theorem nextRequest_some {s s' : State} {r : Request} (h : nextRequest s = some (r, s')) :
    s.outstanding[servedIndex s]? = some r ∧ s' = s.withoutRequest (servedIndex s) ∧
    ((∃ k, s.control[k]? = some r ∧ s'.control = s.control.eraseIdx k ∧ s'.production = s.production) ∨
     (∃ k, s.production[k]? = some r ∧ s'.production = s.production.eraseIdx k ∧ s'.control = s.control)) := by
  simp only [nextRequest, Option.map_eq_some_iff, Prod.mk.injEq] at h
  obtain ⟨r', hr, rfl, rfl⟩ := h
  refine ⟨hr, rfl, ?_⟩
  by_cases hk : servedIndex s < s.control.length
  · exact .inl ⟨servedIndex s, by rw [← hr, State.outstanding, List.getElem?_append_left hk], rfl,
      by simp [State.withoutRequest, hk]⟩
  · have hk := Nat.not_lt.mp hk
    exact .inr ⟨servedIndex s - s.control.length, by rw [← hr, State.outstanding, List.getElem?_append_right hk],
      by simp [State.withoutRequest, Nat.not_lt.mpr hk], by simp [State.withoutRequest, List.eraseIdx_of_length_le hk]⟩

/-- Everything a step can do when it answers a next state. -/
theorem step_next {s t : State} (h : step s = .next t) :
    (s.resetLine = true ∧ t = applyReset s) ∨
    (s.resetLine = false ∧ nextRequest s = none ∧ t = s) ∨
    (s.resetLine = false ∧ ∃ r s' i, nextRequest s = some (r, s') ∧ decode r = .ok i ∧ exec i s' = .next t) := by
  unfold step at h
  split at h
  · rename_i hr
    exact .inl ⟨hr, by simpa using h.symm⟩
  · rename_i hr
    have hr : s.resetLine = false := by simpa using hr
    split at h
    · rename_i hn
      exact .inr (.inl ⟨hr, hn, by simpa using h.symm⟩)
    · rename_i r s' hn
      split at h
      · rename_i i hi
        exact .inr (.inr ⟨hr, r, s', i, hn, hi, h⟩)
      · simp at h

end Sys2Proof.Machine
end

