-- ==== Sys2Proof/Laws/Memory.lean ====
section
/-! SUPPORT. The sample memory: every operation keeps the canonical form, a byte reads as it was last written, and
what the one read of the block can answer (20_memory.md R52, R57). -/

namespace Sys2Proof.Machine

/-! ### The canonical form -/

theorem Memory.wf_tail {c : Host.Cell} {m : List Host.Cell} (h : Memory.wf (c :: m) = true) : Memory.wf m = true := by
  cases m with
  | nil => rfl
  | cons d rest =>
    obtain ⟨a, x⟩ := c
    obtain ⟨b, y⟩ := d
    simp only [Memory.wf, Bool.and_eq_true] at h
    exact h.2

/-- Putting a lower address before a canonical memory keeps it canonical. -/
theorem Memory.wf_cons {a : Nat} {x : Byte} {m : List Host.Cell} (hm : Memory.wf m = true)
    (hlow : ∀ c ∈ m.head?, a < c.1) : Memory.wf ((a, x) :: m) = true := by
  cases m with
  | nil => rfl
  | cons d rest =>
    obtain ⟨b, y⟩ := d
    have hab : a < b := hlow (b, y) (by simp)
    simp [Memory.wf, hab, hm]

/-- What a byte write can put first: the address written, or what stood first. -/
theorem writeByte_head {m : List Host.Cell} {a : Nat} {b : Byte} {c : Host.Cell} (h : c ∈ (writeByte m a b).head?) :
    c.1 = a ∨ c ∈ m.head? := by
  cases m with
  | nil => simp [writeByte] at h; exact .inl (by rw [← h])
  | cons d rest =>
    obtain ⟨k, x⟩ := d
    simp only [writeByte] at h
    split at h
    · simp at h; exact .inl (by rw [← h])
    · split at h
      · simp at h; exact .inl (by rw [← h])
      · exact .inr (by simpa using h)

theorem writeByte_wf {m : List Host.Cell} (hm : Memory.wf m = true) (a : Nat) (b : Byte) :
    Memory.wf (writeByte m a b) = true := by
  induction m with
  | nil => rfl
  | cons d rest ih =>
    obtain ⟨k, x⟩ := d
    have hrest := Memory.wf_tail hm
    have hk : ∀ c ∈ rest.head?, k < c.1 := by
      intro c hc
      cases rest with
      | nil => simp at hc
      | cons e _ =>
        obtain ⟨j, y⟩ := e
        simp only [Memory.wf, Bool.and_eq_true, decide_eq_true_eq] at hm
        simp at hc
        rw [← hc]
        exact hm.1
    simp only [writeByte]
    split
    · exact Memory.wf_cons hm (by intro c hc; simp at hc; rw [← hc]; assumption)
    · split
      · rename_i h
        subst h
        exact Memory.wf_cons hrest hk
      · refine Memory.wf_cons (ih hrest) ?_
        intro c hc
        rcases writeByte_head hc with h | h
        · rw [h]; omega
        · exact hk c h

theorem writeWord_wf {m : List Host.Cell} (hm : Memory.wf m = true) (a : WordAddr) (w : Word) :
    Memory.wf (writeWord m a w) = true :=
  writeByte_wf (writeByte_wf (writeByte_wf (writeByte_wf hm _ _) _ _) _ _) _ _

theorem placeWords_wf {m : List Host.Cell} (hm : Memory.wf m = true) (a : WordAddr) (ws : List Word) :
    Memory.wf (placeWords m a ws) = true := by
  induction ws generalizing m a with
  | nil => exact hm
  | cons w rest ih => exact ih (writeWord_wf hm a w) _

theorem reset_mem_wf : Memory.wf State.reset.mem = true := rfl

/-! ### Reading back -/

@[simp] theorem byteAt_writeByte_same (m : List Host.Cell) (a : Nat) (b : Byte) :
    byteAt (writeByte m a b) a = some b := by
  induction m with
  | nil => simp [writeByte, byteAt]
  | cons d rest ih =>
    obtain ⟨k, x⟩ := d
    simp only [writeByte]
    split
    · simp [byteAt]
    · split
      · simp [byteAt]
      · rename_i h
        simp [byteAt, Ne.symm h, ih]

theorem byteAt_writeByte_other (m : List Host.Cell) {a c : Nat} (b : Byte) (hac : c ≠ a) :
    byteAt (writeByte m a b) c = byteAt m c := by
  induction m with
  | nil => simp [writeByte, byteAt, Ne.symm hac]
  | cons d rest ih =>
    obtain ⟨k, x⟩ := d
    simp only [writeByte]
    split
    · simp [byteAt, Ne.symm hac]
    · split
      · rename_i h
        subst h
        simp [byteAt, Ne.symm hac]
      · simp [byteAt, ih]

/-! ### The one read of the block -/

/-- `hasWords` says that every word below the bound exists (R15). -/
theorem hasWords_iff (m : List Host.Cell) (base n : Nat) :
    hasWords m base n = true ↔ ∀ k < n, (wordAt m (base + k)).isSome = true := by
  induction n with
  | zero => simp [hasWords]
  | succ n ih =>
    simp only [hasWords, Bool.and_eq_true, ih]
    constructor
    · rintro ⟨h, hn⟩ k hk
      rcases Nat.lt_succ_iff_lt_or_eq.mp hk with hk | rfl
      · exact h k hk
      · exact hn
    · intro h
      exact ⟨fun k hk => h k (by omega), h n (by omega)⟩

/-- Everything `memRead` can answer: the word, when every word up to it exists, or MemFault at its address. -/
theorem memRead_cases (m : List Host.Cell) (base off : Nat) :
    (∃ w, memRead m base off = .ok w ∧ wordAt m (base + off) = some w ∧ hasWords m base (off + 1) = true) ∨
    (memRead m base off = .error (.memFault (base + off)) ∧ hasWords m base (off + 1) = false) := by
  unfold memRead
  cases hh : hasWords m base off <;> cases hw : wordAt m (base + off) <;> simp [hasWords, hh, hw]

/-- A read succeeds exactly when the word's offset is below MEM_WORDS(base) (R57). -/
theorem memRead_ok_iff (m : List Host.Cell) (base off : Nat) (w : Word) :
    memRead m base off = .ok w ↔ hasWords m base (off + 1) = true ∧ wordAt m (base + off) = some w := by
  unfold memRead
  cases hh : hasWords m base off <;> cases hw : wordAt m (base + off) <;> simp [hasWords, hh, hw]

theorem memRead_error_iff (m : List Host.Cell) (base off : Nat) (e : Fault) :
    memRead m base off = .error e ↔ hasWords m base (off + 1) = false ∧ e = .memFault (base + off) := by
  unfold memRead
  cases hh : hasWords m base off <;> cases hw : wordAt m (base + off) <;> simp [hasWords, hh, hw, eq_comm]

end Sys2Proof.Machine
end

