-- ==== Sys2Proof/Laws/Voice.lean ====
section
/-! SUPPORT. What the actions of a voice can do, said once for each: ASSIGN (42_voice_player.md R131, R132), PRODUCE and
its loop (R133). -/

namespace Sys2Proof.Machine

/-- The loop of PRODUCE, one word read (R133). -/
theorem frameLoop_succ_ok {cfg : Config} {m : List Host.Cell} {f : Fmt} {n : Nat} {x x' : VoiceRegs}
    {frame : List Half} (h : frameLoop cfg m f (n + 1) x = .ok (frame, x')) :
    ∃ w rest, memRead m x.base x.cursor = .ok w ∧ frameLoop cfg m f n (afterWord cfg f w x) = .ok (rest, x') ∧
      frame = wordFrame cfg f w x ++ rest := by
  simp only [frameLoop] at h
  split at h
  · simp at h
  · rename_i w hw
    split at h
    · simp at h
    · rename_i rest y hy
      simp at h
      obtain ⟨rfl, rfl⟩ := h
      exact ⟨w, rest, hw, hy, rfl⟩

/-- What the loop of PRODUCE leaves alone, and how far the cursor moves (R133, R143). -/
theorem frameLoop_frame {cfg : Config} {m : List Host.Cell} {f : Fmt} {n : Nat} {x x' : VoiceRegs}
    {frame : List Half} (h : frameLoop cfg m f n x = .ok (frame, x')) :
    x'.cursor = x.cursor + n ∧
    x' = { x with cursor := x'.cursor, prior := x'.prior, fadePos := x'.fadePos } := by
  induction n generalizing x frame with
  | zero =>
    simp only [frameLoop, Except.ok.injEq, Prod.mk.injEq] at h
    obtain ⟨-, rfl⟩ := h
    exact ⟨rfl, rfl⟩
  | succ n ih =>
    obtain ⟨w, rest, -, hl, -⟩ := frameLoop_succ_ok h
    obtain ⟨hc, hx⟩ := ih hl
    refine ⟨by rw [hc, afterWord_cursor]; omega, ?_⟩
    rw [hx]
    rfl

/-- Where the words exist, the loop of PRODUCE completes; otherwise it stops at the first one missing. -/
theorem frameLoop_total (cfg : Config) (m : List Host.Cell) (f : Fmt) (n : Nat) (x : VoiceRegs)
    (h : hasWords m x.base (x.cursor + n) = true) : ∃ frame x', frameLoop cfg m f n x = .ok (frame, x') := by
  induction n generalizing x with
  | zero => exact ⟨_, _, rfl⟩
  | succ n ih =>
    rw [hasWords_iff] at h
    have hw : hasWords m x.base (x.cursor + 1) = true :=
      (hasWords_iff ..).mpr fun k hk => h k (by omega)
    rcases memRead_cases m x.base x.cursor with ⟨w, hr, -, -⟩ | ⟨-, hno⟩
    · obtain ⟨rest, x', hl⟩ := ih (afterWord cfg f w x)
        ((hasWords_iff ..).mpr fun k hk => h k (by rw [afterWord_cursor] at hk; omega))
      exact ⟨_, _, by simp only [frameLoop, hr, hl]; rfl⟩
    · rw [hw] at hno
      simp at hno

/-- The loop of PRODUCE fails only with MemFault at a word at or after the cursor (R163). -/
theorem frameLoop_error {cfg : Config} {m : List Host.Cell} {f : Fmt} {n : Nat} {x : VoiceRegs} {e : Fault}
    (h : frameLoop cfg m f n x = .error e) :
    ∃ k < n, e = .memFault (x.base + (x.cursor + k)) ∧ hasWords m x.base (x.cursor + k + 1) = false := by
  induction n generalizing x with
  | zero => simp [frameLoop] at h
  | succ n ih =>
    simp only [frameLoop] at h
    split at h
    · rename_i e' he
      simp at h
      subst h
      obtain ⟨hno, rfl⟩ := (memRead_error_iff ..).mp he
      exact ⟨0, by omega, rfl, hno⟩
    · rename_i w hw
      split at h
      · rename_i e' he
        simp at h
        subst h
        obtain ⟨k, hk, rfl, hno⟩ := ih he
        have hk' : x.cursor + 1 + k = x.cursor + (k + 1) := by omega
        rw [afterWord_base, afterWord_cursor, hk'] at hno
        exact ⟨k + 1, by omega, by rw [afterWord_base, afterWord_cursor, hk'], hno⟩
      · simp at h

/-- Everything PRODUCE can do to its voice when it succeeds (R133). -/
theorem produceVoice_ok {cfg : Config} {m : List Host.Cell} {x x' : Voice} (h : produceVoice cfg m x = .ok x') :
    (x.regs.playing = false ∧ x' = x.respond .none) ∨
    (x.regs.playing = true ∧ formatOf x.regs.fmt = none ∧ x' = takeDecodeFault x.regs.fmt x) ∨
    (∃ f frame r, x.regs.playing = true ∧ formatOf x.regs.fmt = some f ∧
      frameLoop cfg m f (wordsPerFrame cfg f) x.regs = .ok (frame, r) ∧
      x' = ((x.withRegs (endOfFrame cfg f r)).emit frame).respond (.frame frame)) := by
  unfold produceVoice at h
  split at h
  · rename_i hp
    exact .inl ⟨hp, by simpa using h.symm⟩
  · rename_i hp
    have hp : x.regs.playing = true := by simpa using hp
    split at h
    · rename_i hf
      exact .inr (.inl ⟨hp, hf, by simpa using h.symm⟩)
    · rename_i f hf
      split at h
      · simp at h
      · rename_i frame r hl
        exact .inr (.inr ⟨f, frame, r, hp, hf, hl, by simpa using h.symm⟩)

/-- Everything ASSIGN can do to its voice when it succeeds (R131, R132). -/
theorem assignVoice_ok {cfg : Config} {m : List Host.Cell} {v : Nat} {sample : Option WordAddr} {st ln : Word}
    {x x' : Voice} (h : assignVoice cfg m v sample st ln x = .ok x') :
    (sample = none ∧ x' = x.respond (.status .rejNull)) ∨
    (∃ b, sample = some b ∧ x.regs.playing = true ∧ x' = x.respond (.status .rejBusy)) ∨
    (∃ b hdr, sample = some b ∧ x.regs.playing = false ∧ memRead m b 0 = .ok hdr ∧
      x' = assignHeader cfg v b st ln hdr x) := by
  unfold assignVoice at h
  split at h
  · exact .inl ⟨rfl, by simpa using h.symm⟩
  · rename_i b
    split at h
    · rename_i hp
      exact .inr (.inl ⟨b, rfl, hp, by simpa using h.symm⟩)
    · rename_i hp
      split at h
      · simp at h
      · rename_i hdr hr
        exact .inr (.inr ⟨b, hdr, rfl, by simpa using hp, hr, by simpa using h.symm⟩)

/-- Everything ASSIGN can do once it has read the header (R131, R132). -/
theorem assignHeader_cases (cfg : Config) (v : Nat) (b : WordAddr) (st ln hdr : Word) (x : Voice) :
    (formatOf (headerCode hdr) = none ∧
      assignHeader cfg v b st ln hdr x =
        (startUnrecognised v b (headerCode hdr) (headerCount hdr) x).respond (.status .ok)) ∨
    (∃ f, formatOf (headerCode hdr) = some f ∧ segmentLen cfg f (headerCount hdr) st ln < 1 ∧
      assignHeader cfg v b st ln hdr x = x.respond (.status .rejLen)) ∨
    (∃ f, formatOf (headerCode hdr) = some f ∧ 1 ≤ segmentLen cfg f (headerCount hdr) st ln ∧
      assignHeader cfg v b st ln hdr x =
        (x.withRegs (startGrain b f (headerCount hdr) (segmentStart cfg f (headerCount hdr) st)
          (segmentLen cfg f (headerCount hdr) st ln) x.regs)).respond (.status .ok)) := by
  unfold assignHeader
  cases hf : formatOf (headerCode hdr) with
  | none => exact .inl ⟨rfl, rfl⟩
  | some f =>
    by_cases hl : segmentLen cfg f (headerCount hdr) st ln < 1
    · exact .inr (.inl ⟨f, rfl, hl, by simp [hl]⟩)
    · exact .inr (.inr ⟨f, rfl, by omega, by simp [hl]⟩)

/-- The clamped segment lies inside the file (R36 item 1). -/
theorem segment_inside (cfg : Config) (f : Fmt) (n : Count) (st ln : Word) :
    segmentStart cfg f n st + segmentLen cfg f n st ln ≤ n.toNat := by
  have : segmentStart cfg f n st ≤ n.toNat := Nat.min_le_right _ _
  simp only [segmentLen]
  split <;> omega

end Sys2Proof.Machine
end

