-- ==== Sys2Proof/Laws/Frame.lean ====
section
/-! SUPPORT. Closed forms of the loops: the envelope over a list of samples (42_voice_player.md R134), the decode of a
word (41_format_decoder.md R109), the frame of PRODUCE (R133), the reset of all voices (R180). -/

namespace Sys2Proof.Machine

/-- A blend that fits 16 bits is exact (R108). -/
theorem blend_toInt {a b : Int} {n : Nat} {p s : Half} (h : -32768 ≤ asr (a * p.toInt + b * s.toInt) n)
    (h' : asr (a * p.toInt + b * s.toInt) n ≤ 32767) :
    (blend a b n p s).toInt = asr (a * p.toInt + b * s.toInt) n := by
  unfold blend trunc16
  rw [BitVec.toInt_ofInt]
  exact Int.bmod_eq_of_le (by simpa using h) (by simp; omega)

/-- A decode operation is DECODE_WORD at its format. -/
theorem decodeOp_eq (u : Vector Half 256) (f : Fmt) (w : Word) (p : Half) : decodeOp u f w p = decodeWord u f w p := by
  cases f <;> rfl

/-- How many outputs native samples give. -/
theorem interpAll_length (r : Rate) (l : List Half) (p : Half) :
    (interpAll r l p).1.length = l.length * ratioOfRate r := by
  induction l generalizing p with
  | nil => simp [interpAll]
  | cons a l ih =>
    simp only [interpAll, List.length_append, ih, List.length_cons, Nat.add_mul]
    cases r <;> simp [interp, ratioOfRate] <;> omega

/-- One word gives OPW outputs (R109). -/
theorem decodeWord_length (u : Vector Half 256) (f : Fmt) (w : Word) (p : Half) :
    (decodeWord u f w p).1.length = opw f := by
  unfold decodeWord
  rw [interpAll_length]
  cases f <;> rfl

/-- Native samples in two pieces: the second goes on from the last sample of the first. -/
theorem interpAll_append (r : Rate) (a b : List Half) (p : Half) :
    interpAll r (a ++ b) p =
      ((interpAll r a p).1 ++ (interpAll r b (interpAll r a p).2).1, (interpAll r b (interpAll r a p).2).2) := by
  induction a generalizing p with
  | nil => simp [interpAll]
  | cons x a ih => simp [interpAll, ih]

/-- Payload words in two pieces: the second goes on from the prior the first leaves (R116). -/
theorem rawOutputs_append (u : Vector Half 256) (f : Fmt) (ws ws' : List Word) (p : Half) :
    rawOutputs u f (ws ++ ws') p =
      ((rawOutputs u f ws p).1 ++ (rawOutputs u f ws' (rawOutputs u f ws p).2).1,
        (rawOutputs u f ws' (rawOutputs u f ws p).2).2) := by
  induction ws generalizing p with
  | nil => simp [rawOutputs]
  | cons w ws ih => simp [rawOutputs, ih]

/-- No advance leaves the phase alone. -/
theorem phaseAfter_zero (p r : Word) : phaseAfter p r 0 = p := by
  apply BitVec.eq_of_toNat_eq
  simp [phaseAfter]
  omega

/-- Saturated advances add up. -/
theorem phaseAfter_add (p r : Word) (a b : Nat) : phaseAfter (phaseAfter p r a) r b = phaseAfter p r (a + b) := by
  apply BitVec.eq_of_toNat_eq
  simp [phaseAfter, Nat.add_mul]
  omega

/-- One FADE_ADVANCE is one advance. -/
theorem fadeAdvance_eq (p r : Word) : fadeAdvance p r = phaseAfter p r 1 := by
  simp [fadeAdvance, satAdd32, phaseAfter]

/-- The phase after a list of samples. -/
theorem scaleAll_snd (cfg : Config) (r p : Word) (l : List Half) :
    (scaleAll cfg r p l).2 = phaseAfter p r l.length := by
  induction l generalizing p with
  | nil => exact (phaseAfter_zero p r).symm
  | cons a l ih => rw [scaleAll, ih, fadeAdvance_eq, phaseAfter_add, List.length_cons, Nat.add_comm]

/-- The scaled samples: number `n` with the amplitude `n` advances on. -/
theorem scaleAll_fst (cfg : Config) (r p : Word) (l : List Half) : (scaleAll cfg r p l).1 = scaledFrame cfg p r l := by
  induction l generalizing p with
  | nil => rfl
  | cons a l ih =>
    simp only [scaleAll, ih, scaledFrame, List.mapIdx_cons, phaseAfter_zero]
    congr 2
    funext n s
    rw [fadeAdvance_eq, phaseAfter_add, Nat.add_comm]

/-- Scaling two lists, one after the other. -/
theorem scaledFrame_append (cfg : Config) (p r : Word) (a b : List Half) :
    scaledFrame cfg p r (a ++ b) = scaledFrame cfg p r a ++ scaledFrame cfg (phaseAfter p r a.length) r b := by
  unfold scaledFrame
  rw [List.mapIdx_append]
  congr 2
  funext n s
  rw [phaseAfter_add, Nat.add_comm]

/-- The loop of PRODUCE over words that exist, in closed form. -/
theorem frameLoop_eq (cfg : Config) (m : List Host.Cell) (f : Fmt) (ws : List Word) (x : VoiceRegs)
    (hw : hasWords m x.base (x.cursor + ws.length) = true)
    (hws : ∀ k < ws.length, wordAt m (x.base + (x.cursor + k)) = ws[k]?) :
    frameLoop cfg m f ws.length x =
      .ok (scaledFrame cfg x.fadePos x.fadeRate (rawOutputs cfg.ulawTable f ws x.prior).1,
        { x with
          cursor := x.cursor + ws.length
          prior := (rawOutputs cfg.ulawTable f ws x.prior).2
          fadePos := phaseAfter x.fadePos x.fadeRate (ws.length * opw f) }) := by
  induction ws generalizing x with
  | nil => simp [frameLoop, rawOutputs, scaledFrame, phaseAfter_zero]
  | cons w ws ih =>
    have h0 := hws 0 (by simp)
    simp only [List.getElem?_cons_zero, Nat.add_zero] at h0
    have hh : hasWords m x.base (x.cursor + 1) = true := by
      rw [hasWords_iff] at hw ⊢
      intro k hk
      apply hw
      simp
      omega
    have hr := (memRead_ok_iff m x.base x.cursor w).mpr ⟨hh, h0⟩
    have hl := ih (afterWord cfg f w x)
      (by
        simp only [afterWord_base, afterWord_cursor]
        rw [← hw]
        congr 1
        simp
        omega)
      (by
        intro k hk
        have hk' := hws (k + 1) (by simp; omega)
        simp only [afterWord_base, afterWord_cursor]
        rw [← List.getElem?_cons_succ (a := w), ← hk']
        congr 2
        omega)
    simp only [List.length_cons, frameLoop, hr, hl]
    simp only [wordFrame, wordRaw, decodeOp_eq, scaleAll_fst, rawOutputs, scaledFrame_append, afterWord_fadePos,
      scaleAll_snd, afterWord_fadeRate, afterWord_prior, phaseAfter_add, decodeWord_length]
    congr 2
    simp only [afterWord, wordRaw, decodeOp_eq]
    congr 1
    · omega
    · congr 1
      rw [Nat.add_mul]
      omega

/-- Voice `v` after the reset event. -/
theorem resetVoices_getElem? (k : Nat) (l : List Voice) (v : Nat) :
    (resetVoices k l)[v]? = (l[v]?).map (resetVoice (k + v)) := by
  induction l generalizing k v with
  | nil => simp [resetVoices]
  | cons a l ih =>
    cases v with
    | zero => simp [resetVoices]
    | succ v =>
      simp [resetVoices, ih]
      congr 2
      omega

/-- The reset event keeps the number of voices. -/
theorem resetVoices_length (k : Nat) (l : List Voice) : (resetVoices k l).length = l.length := by
  induction l generalizing k with
  | nil => rfl
  | cons a l ih => simp [resetVoices, ih]

end Sys2Proof.Machine
end

