-- ==== Sys2Proof/Laws/PerInstr.lean ====
section
/-! SUPPORT. One statement per instruction about its encoding: the fixed bits of its row of spec/opcode_table.json
stand in what it encodes to, and its operands stand in the fields R70 and R75 give them. Before it, the lemmas of
the header word. -/

namespace Sys2Proof

/-- R52: cutting a word into bytes and joining them again is the identity. -/
theorem wordOfBytes_extract (w : Word) :
    wordOfBytes (w.extractLsb' 0 8) (w.extractLsb' 8 8) (w.extractLsb' 16 8) (w.extractLsb' 24 8) = w := by
  unfold wordOfBytes
  apply BitVec.eq_of_getLsbD_eq
  intro i hi
  interval_cases i <;> simp only [BitVec.getLsbD_append, BitVec.getLsbD_extractLsb'] <;> simp

/-- R70: the code of a header word is the code it was built from. -/
theorem headerCode_headerWord (c : Byte) (n : Count) : headerCode (headerWord c n) = c := by
  apply BitVec.eq_of_getLsbD_eq
  intro i hi
  have h := BitVec.getLsbD_append (x := c) (y := n) (i := 24 + i)
  simpa [headerCode, headerWord, hi] using h

/-- R70: the count of a header word is the count it was built from. -/
theorem headerCount_headerWord (c : Byte) (n : Count) : headerCount (headerWord c n) = n := by
  apply BitVec.eq_of_getLsbD_eq
  intro i hi
  have h := BitVec.getLsbD_append (x := c) (y := n) (i := i)
  simpa [headerCount, headerWord, hi] using h

end Sys2Proof

namespace Sys2Proof.Laws.RowBits

/-- The instruction encodes to a header word with `code` in bits 31:24 and `count` in bits 23:0 (R70), as four
little-endian bytes (R52), addressed to voice `v`. -/
def HeaderRow (i : Instr) (code : Byte) (count : Count) (v : Nat) : Prop :=
  (encode i).layer = .header ∧ (encode i).voice = v ∧
  ∃ b0 b1 b2 b3, (encode i).code = [b0, b1, b2, b3] ∧
    (wordOfBytes b0 b1 b2 b3).extractLsb' 24 8 = code ∧ (wordOfBytes b0 b1 b2 b3).extractLsb' 0 24 = count

/-- The instruction encodes to a command with `op` in bits 2:0 of its one byte and zeros above (R75), addressed to
voice `v`. -/
def CommandRow (i : Instr) (op : BitVec 3) (v : Nat) : Prop :=
  (encode i).layer = .command ∧ (encode i).voice = v ∧
  ∃ b : Byte, (encode i).code = [b] ∧ b.extractLsb' 0 3 = op ∧ b.extractLsb' 3 5 = 0#5

/-- What the instruction's row says of its encoding. -/
def Statement : Instr → Prop
  | .decUlaw44 n d => HeaderRow (.decUlaw44 n d) 0x01#8 n d.voice
  | .decPcm44 n d => HeaderRow (.decPcm44 n d) 0x81#8 n d.voice
  | .decUlaw22 n d => HeaderRow (.decUlaw22 n d) 0x02#8 n d.voice
  | .decPcm22 n d => HeaderRow (.decPcm22 n d) 0x82#8 n d.voice
  | .decUlaw11 n d => HeaderRow (.decUlaw11 n d) 0x03#8 n d.voice
  | .decPcm11 n d => HeaderRow (.decPcm11 n d) 0x83#8 n d.voice
  | .decUnrecognised c n d => HeaderRow (.decUnrecognised c n d) c n d.voice
  | .assign v sample st ln => CommandRow (.assign v sample st ln) 1#3 v
  | .produce v => CommandRow (.produce v) 2#3 v
  | .queryPos v => CommandRow (.queryPos v) 3#3 v
  | .queryLen v => CommandRow (.queryLen v) 4#3 v
  | .isPlaying v => CommandRow (.isPlaying v) 5#3 v
  | .isBusy v => CommandRow (.isBusy v) 6#3 v

/-- Every header-layer request is a header row. -/
theorem headerRow_of_encode {i : Instr} {c : Byte} {n : Count} {d : DecodeOperands}
    (h : encode i = headerRequest c n d) : HeaderRow i c n d.voice := by
  unfold HeaderRow
  rw [h]
  refine ⟨rfl, rfl, _, _, _, _, rfl, ?_, ?_⟩ <;> rw [wordOfBytes_extract]
  · exact headerCode_headerWord c n
  · exact headerCount_headerWord c n

/-- Every command-layer request is a command row. -/
theorem commandRow_of_encode {i : Instr} {op : BitVec 3} {v : Nat} {sample : Option WordAddr} {st ln : Word}
    (h : encode i = commandRequest op v sample st ln) : CommandRow i op v := by
  unfold CommandRow
  rw [h]
  exact ⟨rfl, rfl, op.setWidth 8, rfl, by clear h; decide +revert, by clear h; decide +revert⟩

theorem decUlaw44 (n : Count) (d : DecodeOperands) : Statement (.decUlaw44 n d) := headerRow_of_encode rfl
theorem decPcm44 (n : Count) (d : DecodeOperands) : Statement (.decPcm44 n d) := headerRow_of_encode rfl
theorem decUlaw22 (n : Count) (d : DecodeOperands) : Statement (.decUlaw22 n d) := headerRow_of_encode rfl
theorem decPcm22 (n : Count) (d : DecodeOperands) : Statement (.decPcm22 n d) := headerRow_of_encode rfl
theorem decUlaw11 (n : Count) (d : DecodeOperands) : Statement (.decUlaw11 n d) := headerRow_of_encode rfl
theorem decPcm11 (n : Count) (d : DecodeOperands) : Statement (.decPcm11 n d) := headerRow_of_encode rfl
theorem decUnrecognised (c : Byte) (n : Count) (d : DecodeOperands) : Statement (.decUnrecognised c n d) :=
  headerRow_of_encode rfl
theorem assign (v : Nat) (sample : Option WordAddr) (st ln : Word) : Statement (.assign v sample st ln) :=
  commandRow_of_encode rfl
theorem produce (v : Nat) : Statement (.produce v) := commandRow_of_encode rfl
theorem queryPos (v : Nat) : Statement (.queryPos v) := commandRow_of_encode rfl
theorem queryLen (v : Nat) : Statement (.queryLen v) := commandRow_of_encode rfl
theorem isPlaying (v : Nat) : Statement (.isPlaying v) := commandRow_of_encode rfl
theorem isBusy (v : Nat) : Statement (.isBusy v) := commandRow_of_encode rfl

end Sys2Proof.Laws.RowBits
end

