-- ==== Sys2Proof/Tests/Slice0.lean ====
section
/-! SUPPORT. The model's own tests: the checks of WellFormed, the decoder on words written out from 30_encoding.md, the
test vectors of 95_test_vectors.md (one step each), and for every statement with hypotheses a witness that meets
them. -/

namespace Sys2Proof.Tests

set_option Elab.async false

open Sys2Proof Sys2Proof.Machine

/-! ### The test instantiations of 92_eei_decisions.md D32 -/

/-- The test table TT (95_test_vectors.md section 2.1). -/
def tt : Vector Half 257 :=
  ⟨((List.range 257).map fun i => BitVec.ofNat 16 (min 32767 (512 * (if i ≤ 128 then i else 256 - i)))).toArray, by simp⟩

/-- One entry of UG (93_implementation_defined.md U2). -/
def ugEntry (b : Nat) : Half :=
  let u := 255 - b
  let t := ((u % 16) * 8 + 132) * 2 ^ (u / 16 % 8)
  BitVec.ofInt 16 (if u ≥ 128 then 132 - (t : Int) else (t : Int) - 132)

/-- The test table UG. -/
def ug : Vector Half 256 := ⟨((List.range 256).map ugEntry).toArray, by simp⟩

/-- FRAME = 16, TT, UG, the default constants. -/
def cfg16 : Config :=
  { frame := 16, fadeTable := tt, ulawTable := ug, kM2S := defaultM2S, kS2M := defaultS2M, envShift := 15,
    fullScale := 32767#16 }

/-- Two voices over a memory image from word address 0, nothing outstanding. -/
def machine (words : List Word) (a b : VoiceRegs) : State :=
  { cfg := cfg16, mem := placeWords [] 0 words,
    voices := [{ Voice.reset with regs := a }, { Voice.reset with regs := b }],
    control := [], production := [], resetLine := false, turns := 0 }

/-- Idle registers. -/
def idle : VoiceRegs := VoiceRegs.reset

def isNext : Host.Outcome State Fault Refusal → Bool
  | .next _ => true
  | .fault _ => false
  | .refused _ => false

/-- The state an outcome gives, reset where it gives none. -/
def after : Host.Outcome State Fault Refusal → State
  | .next t => t
  | .fault _ => State.reset
  | .refused _ => State.reset

theorem eq_next_after {o : Host.Outcome State Fault Refusal} (h : isNext o = true) : o = .next (after o) := by
  cases o <;> first | rfl | cases h

/-- The newest response of voice `v` in the state an outcome gives. -/
def answerOf (v : Nat) (o : Host.Outcome State Fault Refusal) : Option Response :=
  match o with
  | .next t => t.voices[v]?.bind fun x => x.port.responses.head?
  | .fault _ => none
  | .refused _ => none

/-- The registers of voice `v` in the state an outcome gives. -/
def regsOf (v : Nat) (o : Host.Outcome State Fault Refusal) : Option VoiceRegs :=
  match o with
  | .next t => t.voices[v]?.map Voice.regs
  | .fault _ => none
  | .refused _ => none

def faultOf : Host.Outcome State Fault Refusal → Option Fault
  | .fault e => some e
  | .next _ => none
  | .refused _ => none

def halves (l : List Int) : List Half := l.map (BitVec.ofInt 16)

/-! ### WellFormed -/

/-- A voice index not below N_VOICES is refused by the check (U15). -/
theorem test_wellFormed_refuses_missing_voice :
    (Instr.produce 2).wellFormed 2 = false ∧ (Instr.produce 1).wellFormed 2 = true := by decide

/-- The catch-all row with a recognised code is refused by the check (R74). -/
theorem test_wellFormed_refuses_recognised_catch_all :
    (Instr.decUnrecognised 0x01#8 16#24 ⟨0, 0#32, 0#16⟩).wellFormed 2 = false ∧
    (Instr.decUnrecognised 0x05#8 16#24 ⟨0, 0#32, 0#16⟩).wellFormed 2 = true := by decide

/-! ### The decoder, on words written out from R70, R71, R75 -/

theorem test_decode_dec_ulaw44 : decodeTableWord 32 0x01000010 = some (.decUlaw44 16#24 ⟨0, 0#32, 0#16⟩) := by decide
theorem test_decode_dec_pcm44 : decodeTableWord 32 0x81010000 = some (.decPcm44 65536#24 ⟨0, 0#32, 0#16⟩) := by decide
theorem test_decode_dec_ulaw22 : decodeTableWord 32 0x02010000 = some (.decUlaw22 65536#24 ⟨0, 0#32, 0#16⟩) := by decide
theorem test_decode_dec_pcm22 : decodeTableWord 32 0x82000018 = some (.decPcm22 24#24 ⟨0, 0#32, 0#16⟩) := by decide
theorem test_decode_dec_ulaw11 : decodeTableWord 32 0x03FFFFFF = some (.decUlaw11 0xFFFFFF#24 ⟨0, 0#32, 0#16⟩) := by decide
theorem test_decode_dec_pcm11 : decodeTableWord 32 0x83000018 = some (.decPcm11 24#24 ⟨0, 0#32, 0#16⟩) := by decide
/-- Codes next to recognised ones, and 0x00, which "does not mean idle" (R74). -/
theorem test_decode_dec_unrecognised :
    decodeTableWord 32 0x00000000 = some (.decUnrecognised 0x00#8 0#24 ⟨0, 0#32, 0#16⟩) ∧
    decodeTableWord 32 0x04000001 = some (.decUnrecognised 0x04#8 1#24 ⟨0, 0#32, 0#16⟩) ∧
    decodeTableWord 32 0x84000001 = some (.decUnrecognised 0x84#8 1#24 ⟨0, 0#32, 0#16⟩) ∧
    decodeTableWord 32 0x80000001 = some (.decUnrecognised 0x80#8 1#24 ⟨0, 0#32, 0#16⟩) ∧
    decodeTableWord 32 0xFFFFFFFF = some (.decUnrecognised 0xFF#8 0xFFFFFF#24 ⟨0, 0#32, 0#16⟩) := by decide
theorem test_decode_assign : decodeTableWord 8 0b001 = some (.assign 0 none 0#32 0#32) := by decide
theorem test_decode_produce : decodeTableWord 8 0b010 = some (.produce 0) := by decide
theorem test_decode_query_pos : decodeTableWord 8 0b011 = some (.queryPos 0) := by decide
theorem test_decode_query_len : decodeTableWord 8 0b100 = some (.queryLen 0) := by decide
theorem test_decode_is_playing : decodeTableWord 8 0b101 = some (.isPlaying 0) := by decide
theorem test_decode_is_busy : decodeTableWord 8 0b110 = some (.isBusy 0) := by decide

/-- R76: 0 and 7 name no command; bits above `op`, and byte counts no layer has, are refused by name. -/
theorem test_decode_refuses_by_name :
    decode (tableRequest 8 0) = .error (.noSuchCommand 0#3) ∧
    decode (tableRequest 8 7) = .error (.noSuchCommand 7#3) ∧
    decode (tableRequest 8 9) = .error (.badOpByte 9#8) ∧
    decode { tableRequest 32 0 with code := [0#8] } = .error (.badLength .header 1) ∧
    decode { tableRequest 8 1 with code := [] } = .error (.badLength .command 0) := by decide

/-- R52: a header's bytes, least significant first: three of the count, then the code. -/
theorem test_header_bytes : (encode (.decPcm44 0x010203#24 ⟨0, 0#32, 0#16⟩)).code = [0x03#8, 0x02#8, 0x01#8, 0x81#8] := by
  decide

/-! ### The functions inside PRODUCE, on the vectors of 95_test_vectors.md -/

/-- Section 2.2. -/
theorem test_fade_lookup :
    [0x00000000#32, 0x000000FF#32, 0x00000100#32, 0x00008000#32, 0x00800000#32, 0x00FFFFFF#32, 0x01000000#32,
     0x3F800000#32, 0x3FFFFF00#32, 0x40000000#32, 0xBFFFFFFF#32, 0xC0800000#32, 0xC0FFFFFF#32, 0xFE800000#32,
     0xFF000000#32, 0xFFFFFF00#32, 0xFFFFFFFF#32].map (fadeLookup tt) =
    [0, 0, 0, 1, 256, 511, 512, 32511, 32766, 32767, 32767, 32511, 32256, 768, 512, 0, 0] := by decide +kernel

/-- Section 2.3. -/
theorem test_fade_advance :
    fadeAdvance 0x12345678#32 0x00001000#32 = 0x12346678#32 ∧ fadeAdvance 0x00000010#32 0x07FFFFFF#32 = 0x0800000F#32 ∧
    fadeAdvance 0xFFFFFFF0#32 0x0000000F#32 = 0xFFFFFFFF#32 ∧ fadeAdvance 0xFFFFFFF0#32 0x00000010#32 = 0xFFFFFFFF#32 ∧
    fadeAdvance 0x80000000#32 0x80000000#32 = 0xFFFFFFFF#32 := by decide

/-- Section 2.4. -/
theorem test_env_apply :
    ([(32767, 32767), (-32768, 32767), (1, 32767), (-1, 32767), (12345, 16384), (-12345, 16384), (1, 1), (-1, 1),
      (-32768, 1), (100, 32256), (-100, 32256), (-32768, -32768)] : List (Int × Int)).map
        (fun q => (envApply 15 (BitVec.ofInt 16 q.1) q.2).toInt) =
    [32766, -32767, 0, -1, 6172, -6173, 0, -1, -1, 98, -99, -32768] := by decide +kernel

/-- Section 2.5: UG under ULAW_EXPAND, and PCM_UNPACK. -/
theorem test_expand :
    [0x00#8, 0x01#8, 0x70#8, 0x7F#8, 0x80#8, 0x8F#8, 0xE7#8, 0xF0#8, 0xFF#8].map (fun b => (ulawExpand ug b).toInt) =
      [-32124, -31100, -120, 0, 32124, 16764, 260, 120, 0] ∧
    [0x0001#16, 0x7FFF#16, 0x8000#16, 0xFFFF#16, 0xFC18#16].map (fun h => (pcmUnpack h).toInt) =
      [1, 32767, -32768, -1, -1000] := by decide +kernel

/-- Section 2.5. -/
theorem test_interp :
    interp .r44100 99#16 7#16 = halves [7] ∧ interp .r22050 (-1#16) 0#16 = halves [-1, 0] ∧
    interp .r11025 (-3#16) 2#16 = halves [-2, -1, 0, 2] ∧ interp .r11025 0#16 (-1#16) = halves [-1, -1, -1, -1] ∧
    interp .r11025 32767#16 32767#16 = halves [32767, 32767, 32767, 32767] := by decide +kernel

/-- Section 2.6. -/
theorem test_scaling :
    [0#32, 1#32, 10#32, 250#32, 1000#32].map (msToNative cfg16 .pcm44) = [0, 44, 440, 11024, 44099] ∧
    msToNative cfg16 .pcm22 250#32 = 5512 ∧ msToNative cfg16 .pcm11 250#32 = 2756 ∧
    nativeToMs cfg16 .pcm44 44 = 0#32 ∧ nativeToMs cfg16 .pcm44 45 = 1#32 ∧ nativeToMs cfg16 .pcm44 44100 = 999#32 ∧
    nativeToMs cfg16 .pcm22 5512 = 249#32 ∧ nativeToMs cfg16 .ulaw11 16777215 = 1521742#32 := by decide +kernel

/-! ### The header-layer instructions (section 2.5) -/

/-- The answer of a decode operation presented to an Idle voice. -/
def decoded (i : Instr) : Option Response := answerOf 0 (exec i (machine [] idle idle))

theorem test_exec_dec_ulaw44 :
    decoded (.decUlaw44 0#24 ⟨0, 0x8F70F0E7#32, 100#16⟩) = some (.decoded (halves [260, 120, -120, 16764]) 16764#16) := by
  decide +kernel
theorem test_exec_dec_pcm44 :
    decoded (.decPcm44 0#24 ⟨0, 0x80007FFF#32, 0#16⟩) = some (.decoded (halves [32767, -32768]) (-32768#16)) := by
  decide +kernel
theorem test_exec_dec_ulaw22 :
    decoded (.decUlaw22 0#24 ⟨0, 0x8F70F0E7#32, 100#16⟩) =
      some (.decoded (halves [180, 260, 190, 120, 0, -120, 8322, 16764]) 16764#16) := by decide +kernel
theorem test_exec_dec_pcm22 :
    decoded (.decPcm22 0#24 ⟨0, 0x80007FFF#32, -32768#16⟩) =
      some (.decoded (halves [-1, 32767, -1, -32768]) (-32768#16)) := by decide +kernel
theorem test_exec_dec_ulaw11 :
    decoded (.decUlaw11 0#24 ⟨0, 0x8F70F0E7#32, 100#16⟩) =
      some (.decoded (halves [140, 180, 220, 260, 225, 190, 155, 120, 60, 0, -60, -120, 4101, 8322, 12543, 16764])
        16764#16) := by decide +kernel
theorem test_exec_dec_pcm11 :
    decoded (.decPcm11 0#24 ⟨0, 0x7FFF8000#32, 32767#16⟩) =
      some (.decoded (halves [16383, -1, -16385, -32768, -16385, -1, 16383, 32767]) 32767#16) := by decide +kernel

/-- Program P3 (section 4.3), the voice after step 1, registers R132 leaves open at values of the test's own. -/
def p3Voice : Voice :=
  { Voice.reset with
    regs :=
      { idle with
        playing := true, busy := true, fmt := 0x05#8, fileLen := 16#24, cursor := 77, segLen := 5#24 } }

/-- The Idle voice. -/
def idleVoice : Voice := { Voice.reset with regs := idle }

/-- Program P3, memory and voice 0 after step 1. -/
def p3 : State := machine [0x05000010#32, 0x11111111#32] p3Voice.regs idle

/-- The catch-all row alone, at a voice that has latched its code: no output, no register changes (R161: the fault is
PRODUCE's). -/
theorem test_exec_dec_unrecognised :
    answerOf 0 (exec (.decUnrecognised 0x05#8 16#24 ⟨0, 0#32, 0#16⟩) p3) = some .none ∧
    regsOf 0 (exec (.decUnrecognised 0x05#8 16#24 ⟨0, 0#32, 0#16⟩) p3) = some p3Voice.regs := by decide

/-! ### ASSIGN (section 2.7) -/

/-- Response, cursor, seg_len and fade_rate of an ASSIGN to an Idle voice. -/
def assigned (hdr st ln : Word) : Option Response × List Nat :=
  let o := exec (.assign 0 (some 0) st ln) (machine [hdr] idle idle)
  (answerOf 0 o, ((regsOf 0 o).map fun r => [r.cursor, r.segLen.toNat, r.fadeRate.toNat]).getD [])

theorem test_exec_assign :
    assigned 0x81010000#32 1000#32 250#32 = (some (.status .ok), [22050, 11024, 0x0005F1E1]) ∧
    assigned 0x81010000#32 1486#32 10#32 = (some (.status .ok), [32767, 4, 0x3FFFFFFF]) ∧
    assigned 0x81010000#32 1487#32 10#32 = (some (.status .rejLen), [0, 0, 0]) ∧
    assigned 0x02010000#32 3#32 5#32 = (some (.status .ok), [17, 110, 0x0253C825]) ∧
    assigned 0x83000018#32 1#32 1#32 = (some (.status .ok), [6, 11, 0x1745D174]) ∧
    assigned 0x03FFFFFF#32 0#32 0xFFFFFFFF#32 = (some (.status .ok), [1, 16777215, 0x00000100]) ∧
    assigned 0x81010000#32 0xFFFFFFFF#32 0xFFFFFFFF#32 = (some (.status .rejLen), [0, 0, 0]) := by decide +kernel

/-- R166: the order of the rejections; R132: `length_ms` is not examined for an unrecognised code. -/
theorem test_exec_assign_order :
    answerOf 0 (exec (.assign 0 none 0#32 0#32) p3) = some (.status .rejNull) ∧
    answerOf 0 (exec (.assign 0 (some 0) 0#32 0#32) p3) = some (.status .rejBusy) ∧
    faultOf (exec (.assign 1 (some 9) 0#32 0#32) p3) = some (.memFault 9) ∧
    answerOf 1 (exec (.assign 1 (some 0) 0#32 0#32) p3) = some (.status .ok) := by decide

/-! ### PRODUCE -/

/-- The Playing voices of P1 after step 3 and of P2 after step 2. -/
def p1Voice : Voice :=
  { Voice.reset with
    regs :=
      { playing := true, busy := true, fmt := 0x81#8, base := 0, fileLen := 32#24, segStartW := 1#32, cursor := 9,
        segLen := 16#24, segTotal := 32#24, prior := 7000#16, fadePos := 0x7FFFFFF0#32, fadeRate := 0x07FFFFFF#32 } }
def p2Voice : Voice :=
  { Voice.reset with
    regs :=
      { playing := true, busy := true, fmt := 0x82#8, base := 0, fileLen := 24#24, segStartW := 1#32, cursor := 5,
        segLen := 14#24, segTotal := 22#24, prior := 3200#16, fadePos := 0xBA2E8BA0#32, fadeRate := 0x0BA2E8BA#32 } }

/-- Program P2 (section 4.2), memory and voice after step 2. -/
def p2 : State :=
  machine [0x82000018#32, 0x03200190#32, 0x064004B0#32, 0x096007D0#32, 0x0C800AF0#32, 0x0FA00E10#32, 0x12C01130#32,
    0x15E01450#32, 0x19001770#32, 0x1C201A90#32, 0x1F401DB0#32, 0x226020D0#32, 0x258023F0#32, 0xDEADBEEF#32,
    0xDEADBEEF#32]
    p2Voice.regs idle

/-- Program P2, step 3: interpolation from the prior of the frame before, a falling envelope, saturation. -/
theorem test_exec_produce :
    answerOf 0 (exec (.produce 0) p2) =
      some (.frame (halves [3399, 3272, 2763, 2181, 1527, 799, 0, 0, 0, 0, 0, 0, 0, 0, 0, 0])) ∧
    regsOf 0 (exec (.produce 0) p2) =
      some { playing := true, busy := true, fmt := 0x82#8, base := 0, fileLen := 24#24, segStartW := 1#32, cursor := 9,
             segLen := 6#24, segTotal := 22#24, prior := 6400#16, fadePos := 0xFFFFFFFF#32,
             fadeRate := 0x0BA2E8BA#32 } := by decide +kernel

/-- Program P1 (section 4.1), memory and voice after step 3. -/
def p1 (n : Nat) : State :=
  machine ([0x81000020#32, 0xE4A8E0C0#32, 0xEC78E890#32, 0xF448F060#32, 0xFC18F830#32, 0x03E80000#32, 0x0BB807D0#32,
    0x13880FA0#32, 0x1B581770#32, 0x23281F40#32, 0x2AF82710#32, 0x32C82EE0#32, 0x3A9836B0#32, 0x42683E80#32,
    0x4A384650#32, 0x52084E20#32, 0x59D855F0#32].take n)
    p1Voice.regs idle

/-- Program P1, step 4, the last frame of its grain; with its last two words missing, MemFault at the first of them. -/
theorem test_exec_produce_last :
    answerOf 0 (exec (.produce 0) (p1 17)) =
      some (.frame (halves [7999, 8999, 9999, 10999, 11999, 12999, 13999, 14999, 15999, 14875, 13500, 11875, 10000, 7875,
        5500, 2875])) ∧
    (regsOf 0 (exec (.produce 0) (p1 17))).map (fun r => [r.cursor, r.segLen.toNat, r.prior.toNat, r.fadePos.toNat]) =
      some [17, 16, 23000, 0xFFFFFFE0] ∧
    (regsOf 0 (exec (.produce 0) (p1 17))).map (fun r => (r.playing, r.busy)) = some (false, false) ∧
    faultOf (exec (.produce 0) (p1 15)) = some (.memFault 15) := by decide +kernel

/-- Program P3 (section 4.3), step 5: the decode fault. -/
theorem test_exec_produce_decode_fault :
    answerOf 0 (exec (.produce 0) p3) = some .none ∧
    regsOf 0 (exec (.produce 0) p3) = some { p3Voice.regs with playing := false, busy := false } := by decide

/-! ### The queries (section 2.8) -/

/-- A Playing voice with the registers the queries read. -/
def playing (fmt : Byte) (segStartW : Word) (cursor : Nat) (segTotal : Count) : State :=
  machine [] idle
    { idle with
      playing := true, busy := true, fmt := fmt, segStartW := segStartW, cursor := cursor, segTotal := segTotal }

theorem test_exec_query_pos :
    answerOf 1 (exec (.queryPos 1) (playing 0x81#8 1#32 25 88#24)) = some (.millis 1#32) ∧
    answerOf 1 (exec (.queryPos 1) (playing 0x82#8 1#32 1379 5512#24)) = some (.millis 124#32) ∧
    answerOf 1 (exec (.queryPos 1) (playing 0x05#8 1#32 1379 5512#24)) = some (.millis 0#32) ∧
    answerOf 0 (exec (.queryPos 0) (playing 0x82#8 1#32 1379 5512#24)) = some (.millis 0#32) := by decide +kernel
theorem test_exec_query_len :
    answerOf 1 (exec (.queryLen 1) (playing 0x81#8 22050#32 22050 11024#24)) = some (.millis 249#32) ∧
    answerOf 1 (exec (.queryLen 1) (playing 0x82#8 1#32 1379 5512#24)) = some (.millis 249#32) ∧
    answerOf 1 (exec (.queryLen 1) (playing 0x05#8 1#32 1379 5512#24)) = some (.millis 0#32) := by decide +kernel
theorem test_exec_is_playing :
    answerOf 0 (exec (.isPlaying 0) p3) = some (.bit true) ∧ answerOf 1 (exec (.isPlaying 1) p3) = some (.bit false) := by
  decide
theorem test_exec_is_busy :
    answerOf 0 (exec (.isBusy 0) p3) = some (.bit true) ∧ answerOf 1 (exec (.isBusy 1) p3) = some (.bit false) := by
  decide

/-! ### One step -/

/-- A command outstanding alone on the production path runs. -/
theorem test_step_production : answerOf 0 (step (p3.issueProduction (encode (.isBusy 0)))) = some (.bit true) := by decide

/-- A header word and a command as the first instruction after reset. -/
theorem test_step_after_reset :
    isNext (step (State.reset.withFetchWord 32 0x81010000)) = true ∧
    isNext (step (State.reset.withFetchWord 32 0x00000000)) = true ∧
    isNext (step (State.reset.withFetchWord 8 1)) = true ∧ isNext (step (State.reset.withFetchWord 8 6)) = true :=
  ⟨rfl, rfl, rfl, rfl⟩

/-- A reset abandons the grain (R181) and answers nothing. -/
theorem test_step_reset :
    (regsOf 0 (step p2.askReset)).map (fun r => (r.playing, r.busy)) = some (false, false) ∧
    answerOf 0 (step p2.askReset) = none := by decide

/-! ### Witnesses: states and operands that meet the hypotheses of the statements -/

/-- The encoding of PRODUCE for voice 0, and of a header word of an unrecognised code. -/
def produceRequest : Request := encode (.produce 0)
def headerRequest05 : Request := encode (.decUnrecognised 0x05#8 16#24 ⟨0, 0#32, 0#16⟩)

/-- P1 after step 3 with the PRODUCE of step 4 outstanding. -/
def p1Served : State := (p1 17).issueProduction produceRequest

/-- P1 after step 3 meets the invariant, one frame into its grain. -/
theorem p1_inv : (p1 17).Inv := by
  refine ⟨by decide, by decide +kernel, by decide, ?_⟩
  intro x hx
  simp only [p1, machine, List.mem_cons, List.not_mem_nil, or_false] at hx
  rcases hx with rfl | rfl
  · refine ⟨rfl, ?_⟩
    intro f _ hf
    obtain rfl : f = .pcm44 := by
      have h : formatOf 0x81#8 = some Fmt.pcm44 := by decide
      exact Option.some.inj (hf.symm.trans h)
    exact ⟨1, by decide⟩
  · exact ⟨rfl, fun f hp _ => by cases hp⟩

theorem witness_StepKeepsTheInvariant : p1Served.Inv ∧ step p1Served = .next (after (step p1Served)) :=
  ⟨p1_inv, eq_next_after (by decide +kernel)⟩

/-- An index below 2 names PRODUCE's request in a list of two of them, whatever was drawn. -/
theorem drawn_of_two (d : Nat) : [produceRequest, produceRequest][d % 2]? = some produceRequest := by
  rcases Nat.mod_two_eq_zero_or_one d with h | h <;> rw [h] <;> rfl

/-- A request alone, of either path; two of one path and of the other, with whichever of them the draw names. -/
theorem witness_StepRunsTheDecodedInstruction :
    p3.resetLine = false ∧ decode produceRequest = .ok (.produce 0) ∧
    ((p3.issueControl produceRequest).control = [produceRequest] ∧ (p3.issueControl produceRequest).production = []) ∧
    ((p3.issueProduction produceRequest).control = [] ∧
      (p3.issueProduction produceRequest).production = [produceRequest]) ∧
    (let s := (p3.issueControl produceRequest).issueControl produceRequest
     2 ≤ s.control.length + s.production.length ∧
     s.control[Config.orderDraw s.turns % (s.control.length + s.production.length)]? = some produceRequest) ∧
    (let s := (p3.issueProduction produceRequest).issueProduction produceRequest
     2 ≤ s.control.length + s.production.length ∧
     s.control.length ≤ Config.orderDraw s.turns % (s.control.length + s.production.length) ∧
     s.production[Config.orderDraw s.turns % (s.control.length + s.production.length) - s.control.length]? =
       some produceRequest) :=
  ⟨rfl, by decide, ⟨rfl, rfl⟩, ⟨rfl, rfl⟩, ⟨by decide, drawn_of_two _⟩, ⟨by decide, Nat.zero_le _, drawn_of_two _⟩⟩

theorem witness_StepWaitsWithNothingOutstanding :
    p1Served.resetLine = false ∧ (p1 17).control = [] ∧ (p1 17).production = [] := by decide

theorem witness_ResetEventIdlesEveryVoice : p2.askReset.resetLine = true ∧
    (p2.askReset.voices[0]?).isSome = true ∧ ((after (step p2.askReset)).voices[0]?).isSome = true := by decide

theorem witness_StepKeepsTablesAndSampleMemory : step p1Served = .next (after (step p1Served)) :=
  eq_next_after (by decide +kernel)

theorem witness_HistoriesOnlyGrow : step p1Served = .next (after (step p1Served)) ∧
    (p1Served.voices[0]?).isSome = true ∧ ((after (step p1Served)).voices[0]?).isSome = true :=
  ⟨eq_next_after (by decide +kernel), by decide, by decide +kernel⟩

/-- P3 with other values in its unspecified registers. -/
def p3Other : State :=
  machine [0x05000010#32, 0x11111111#32]
    { idle with
      playing := true, busy := true, fmt := 0x05#8, fileLen := 16#24, cursor := 3, segLen := 1#24, prior := 9#16 }
    { idle with fmt := 0x81#8, base := 4 }

/-- Two different states: a voice Playing with an unrecognised code and different cursors, an Idle voice with different
registers. -/
theorem witness_UnspecifiedRegistersAreNeverRead : State.SameButUnread p3 p3Other ∧
    p3.voices ≠ p3Other.voices ∧ p3.voices[1]? = some idleVoice ∧ idleVoice.regs.playing = false := by
  refine ⟨⟨rfl, rfl, rfl, rfl, rfl, rfl, .cons ?_ (.cons ?_ .nil)⟩, by decide, by decide, rfl⟩
  · exact ⟨rfl, rfl, rfl, fun _ => ⟨rfl, rfl, rfl, rfl, fun h => absurd h (by decide)⟩⟩
  · exact ⟨rfl, rfl, rfl, fun h => by cases h⟩

theorem witness_DecodeUndoesEncode :
    (Instr.decUnrecognised 0x84#8 16#24 ⟨1, 7#32, 9#16⟩).codeFits = true ∧
    (Instr.assign 1 (some 4) 1#32 2#32).codeFits = true := by decide

theorem witness_EncodeUndoesDecode :
    decode (tableRequest 32 0xFF000001) = .ok (.decUnrecognised 0xFF#8 1#24 ⟨0, 0#32, 0#16⟩) ∧
    decode (tableRequest 8 1) = .ok (.assign 0 none 0#32 0#32) := by decide

/-- Both values of `op`, on either path. -/
theorem witness_UnusedOpsAreRefused :
    ∀ op : BitVec 3, op = 0#3 ∨ op = 7#3 →
      let r := commandRequest op 0 none 0#32 0#32
      r.layer = .command ∧ r.code = [op.setWidth 8] ∧
      (p3.issueControl r).resetLine = false ∧ (p3.issueProduction r).resetLine = false ∧
      ((p3.issueControl r).control = [r] ∧ (p3.issueControl r).production = []) ∧
      ((p3.issueProduction r).control = [] ∧ (p3.issueProduction r).production = [r]) :=
  fun _ _ => ⟨rfl, rfl, rfl, rfl, ⟨rfl, rfl⟩, ⟨rfl, rfl⟩⟩

/-- The first index that is none of the voices'. -/
theorem witness_MissingVoiceIsRefused : p3.voices.length ≤ (Instr.isBusy 2).voice ∧ p3.voices.length = 2 := by decide

/-- A header-layer request that decodes; an Idle voice and a recognised header of count 0. -/
theorem witness_HeaderFieldsAreTheirBits :
    (headerRequest05.layer = .header ∧ decode headerRequest05 = .ok (.decUnrecognised 0x05#8 16#24 ⟨0, 0#32, 0#16⟩)) ∧
    (let s := machine [0x81000000#32] idle idle
     s.voices[0]? = some idleVoice ∧ idleVoice.regs.playing = false ∧ wordAt s.mem 0 = some 0x81000000#32 ∧
     formatOf (headerCode 0x81000000#32) = some .pcm44 ∧ headerCount 0x81000000#32 = 0#24) := by decide

theorem witness_DecUlaw44Answers : (p3.voices[(⟨1, 0#32, 0#16⟩ : DecodeOperands).voice]?).isSome = true := by decide
theorem witness_DecPcm44Answers : (p3.voices[(⟨1, 0#32, 0#16⟩ : DecodeOperands).voice]?).isSome = true := by decide
theorem witness_DecUlaw22Answers : (p3.voices[(⟨1, 0#32, 0#16⟩ : DecodeOperands).voice]?).isSome = true := by decide
theorem witness_DecPcm22Answers : (p3.voices[(⟨1, 0#32, 0#16⟩ : DecodeOperands).voice]?).isSome = true := by decide
theorem witness_DecUlaw11Answers : (p3.voices[(⟨1, 0#32, 0#16⟩ : DecodeOperands).voice]?).isSome = true := by decide
theorem witness_DecPcm11Answers : (p3.voices[(⟨1, 0#32, 0#16⟩ : DecodeOperands).voice]?).isSome = true := by decide

/-- A voice Playing with an unrecognised code, and the PRODUCE that logs its fault. -/
theorem witness_DecodeFaultIsRaisedByProduceOnly :
    p3.voices[0]? = some p3Voice ∧ p3Voice.regs.playing = true ∧ formatOf p3Voice.regs.fmt = none ∧
    exec (.produce 0) p3 = .next (after (exec (.produce 0) p3)) ∧ p3Voice.port.faults = [] ∧
    ((after (exec (.produce 0) p3)).voices[0]?).map (fun y => y.port.faults) = some [.decodeFault 0x05#8] :=
  ⟨by decide, rfl, by decide, eq_next_after (by decide), rfl, by decide⟩

/-- A voice that has latched the code and an Idle one. -/
theorem witness_DecUnrecognisedSelectsNoOperation :
    p3.voices[(⟨0, 0#32, 0#16⟩ : DecodeOperands).voice]? = some p3Voice ∧
    p3.voices[(⟨1, 0#32, 0#16⟩ : DecodeOperands).voice]? = some idleVoice ∧ formatOf 0x05#8 = none := by decide

theorem witness_DecodedCountIsExact : cfg16.wf ∧ ({ cfg16 with frame := 128 } : Config).wf := by decide

theorem witness_FadeArrangementsAgree : (0 ≤ 65535) ∧ (65535 ≤ 65535) := by decide

theorem witness_FadeLookupFieldsAreTheirBits : fraction 0xFF0000FF#32 = 0 ∧ fraction 0x00000000#32 = 0 := by decide

/-- A rising segment; a falling one at the largest fraction; FT_RANGE of TT. -/
theorem witness_AmplitudeStaysInItsSegment :
    fadeEntry tt (segmentIndex 0x00FFFFFF#32).castSucc < fadeEntry tt (segmentIndex 0x00FFFFFF#32).succ ∧
    (fadeEntry tt (segmentIndex 0xFFFFFFFF#32).succ < fadeEntry tt (segmentIndex 0xFFFFFFFF#32).castSucc ∧
      fraction 0xFFFFFFFF#32 = 65535) ∧
    cfg16.FtRange ∧ cfg16.fullScale = 32767#16 := by decide +kernel

theorem witness_EnvelopeIsSymmetricWithinOne : cfg16.FtSym := by decide +kernel

/-- Every clause at a boundary of its range. -/
theorem witness_EnvelopeApplyIsExact :
    ((-32768 : Int) ≤ -32768 ∧ (32767 : Int) ≤ 32767) ∧
    ¬ ((-32767#16).toInt = -32768 ∧ (-32768 : Int) = -32768) ∧ (-32768#16).toInt = -32768 ∧ (0 : Int) ≤ 0 ∧
    0 < (1#16).toInt ∧ (0#16).toInt = 0 ∧ ((-1#16).toInt < 0 ∧ (-1#16).toInt ≠ -32768) := by decide

/-- The shortest lengths of the clauses and the longest, the largest PLATEAU_LO of the statement, TT's own. -/
theorem witness_PlateauIsReachedBeforeTheMidpoint :
    (1 ≤ 1 ∧ 1 < 2 ^ 24) ∧ (3 ≤ 3 ∧ 3 < 2 ^ 24) ∧ 2 ^ 24 - 1 < 2 ^ 24 ∧ 85 ≤ 85 ∧ cfg16.FtPlateau 85 ∧
    64 ≤ 85 ∧ cfg16.FtPlateau 64 := by decide +kernel

/-- A Playing voice; an Idle one with its header missing; an Idle one with an empty and with a shortest segment. -/
theorem witness_AssignFollowsItsPseudocode :
    (p3.voices[0]? = some p3Voice ∧ p3Voice.regs.playing = true) ∧
    (p3.voices[1]? = some idleVoice ∧ idleVoice.regs.playing = false ∧ wordAt p3.mem 2 = none) ∧
    (let s := machine [0x81000001#32] idle idle
     s.voices[0]? = some idleVoice ∧ wordAt s.mem 0 = some 0x81000001#32 ∧
     formatOf (headerCode 0x81000001#32) = some .pcm44 ∧
     segmentLen s.cfg .pcm44 (headerCount 0x81000001#32) 0#32 0#32 < 1 ∧
     1 ≤ segmentLen s.cfg .pcm44 (headerCount 0x81000001#32) 0#32 1#32) := by decide +kernel

/-- The shortest and the longest segment. -/
theorem witness_AssignedValuesFitTheirRegisters :
    1 ≤ segmentLen cfg16 .pcm44 1#24 0#32 1#32 ∧ segmentLen cfg16 .pcm44 1#24 0#32 1#32 = 1 ∧
    1 ≤ segmentLen cfg16 .ulaw11 0xFFFFFF#24 0#32 0xFFFFFFFF#32 ∧
    segmentLen cfg16 .ulaw11 0xFFFFFF#24 0#32 0xFFFFFFFF#32 = 0xFFFFFF := by decide +kernel

theorem witness_AssignAcceptsAnUnrecognisedCode :
    p3.voices[1]? = some idleVoice ∧ idleVoice.regs.playing = false ∧ wordAt p3.mem 0 = some 0x05000010#32 ∧
    formatOf (headerCode 0x05000010#32) = none := by decide

/-- The shortest grain and the longest, at the first sample the statement speaks of. -/
theorem witness_EnvelopeEndsBeforeAnInterpolatedGrain :
    (1 ≤ 1 ∧ 1 < 2 ^ 24 ∧ 1 + 1 / 256 + 1 ≤ 2) ∧
    (2 ^ 24 - 1 < 2 ^ 24 ∧ (2 ^ 24 - 1) + (2 ^ 24 - 1) / 256 + 1 ≤ 2 ^ 24 + 2 ^ 16 - 1) ∧
    cfg16.FtRange ∧ cfg16.FtEnds ∧ 2 ≤ ratio .pcm22 ∧ 2 ≤ ratio .ulaw11 := by decide +kernel

/-- Each of the four statuses is the newest response of some ASSIGN. -/
theorem witness_RejectionsChangeNoRegister :
    isNext (exec (.assign 0 none 0#32 0#32) p3) = true ∧
    answerOf 0 (exec (.assign 0 none 0#32 0#32) p3) = some (.status .rejNull) ∧
    answerOf 0 (exec (.assign 0 (some 0) 0#32 0#32) p3) = some (.status .rejBusy) ∧
    answerOf 0 (exec (.assign 0 (some 0) 0#32 0#32) (machine [0x81000001#32] idle idle)) = some (.status .rejLen) ∧
    answerOf 0 (exec (.assign 0 (some 0) 0#32 1#32) (machine [0x81000001#32] idle idle)) = some (.status .ok) ∧
    p3.voices[0]? = some p3Voice ∧ p3Voice.port.responses = [] := by decide +kernel

/-- The words of P1's second frame. -/
def p1Words : List Word := [0x23281F40#32, 0x2AF82710#32, 0x32C82EE0#32, 0x3A9836B0#32, 0x42683E80#32, 0x4A384650#32,
  0x52084E20#32, 0x59D855F0#32]

/-- Idle; an unrecognised code; a missing last word; all words present. -/
theorem witness_ProduceDecodesScalesAndEmitsOneFrame :
    p3.cfg.wf ∧ (p3.voices[1]? = some idleVoice ∧ idleVoice.regs.playing = false) ∧
    (p3.voices[0]? = some p3Voice ∧ p3Voice.regs.playing = true ∧ formatOf p3Voice.regs.fmt = none) ∧
    ((p1 16).voices[0]? = some p1Voice ∧ p1Voice.regs.playing = true ∧ formatOf p1Voice.regs.fmt = some .pcm44 ∧
      hasWords (p1 16).mem p1Voice.regs.base (p1Voice.regs.cursor + wordsPerFrame (p1 16).cfg .pcm44) = false) ∧
    ((p1 17).voices[0]? = some p1Voice ∧ p1Words.length = wordsPerFrame (p1 17).cfg .pcm44 ∧
      hasWords (p1 17).mem p1Voice.regs.base (p1Voice.regs.cursor + wordsPerFrame (p1 17).cfg .pcm44) = true ∧
      ∀ k < p1Words.length, wordAt (p1 17).mem (p1Voice.regs.base + (p1Voice.regs.cursor + k)) = p1Words[k]?) := by
  decide +kernel

/-- A frame that just ends its grain, and one that does not. -/
theorem witness_ExhaustionEndsTheGrain :
    ((p1 17).voices[0]? = some p1Voice ∧ p1Voice.regs.playing = true ∧ formatOf p1Voice.regs.fmt = some .pcm44 ∧
      exec (.produce 0) (p1 17) = .next (after (exec (.produce 0) (p1 17))) ∧
      ((after (exec (.produce 0) (p1 17))).voices[0]?).isSome = true ∧
      (p1 17).cfg.frame / ratio .pcm44 ≥ p1Voice.regs.segLen.toNat) ∧
    (p2.voices[0]? = some p2Voice ∧ p2Voice.regs.playing = true ∧ formatOf p2Voice.regs.fmt = some .pcm22 ∧
      exec (.produce 0) p2 = .next (after (exec (.produce 0) p2)) ∧
      ((after (exec (.produce 0) p2)).voices[0]?).isSome = true ∧
      p2.cfg.frame / ratio .pcm22 < p2Voice.regs.segLen.toNat) :=
  ⟨⟨by decide, by decide, by decide, eq_next_after (by decide +kernel), by decide +kernel, by decide⟩,
    by decide, by decide, by decide, eq_next_after (by decide +kernel), by decide +kernel, by decide⟩

/-- A PRODUCE that emits, one that does not, FRAME = 128. -/
theorem witness_CursorAdvancesByWholeFrames :
    (exec (.produce 0) p2 = .next (after (exec (.produce 0) p2)) ∧
      ((after (exec (.produce 0) p2)).voices[0]?).map (fun y => y.port.emitted.length) = some 1) ∧
    (exec (.produce 1) p2 = .next (after (exec (.produce 1) p2)) ∧
      ((after (exec (.produce 1) p2)).voices[1]?).map (fun y => y.port.emitted) = some []) ∧
    p2Voice.port.emitted = [] ∧ ({ cfg16 with frame := 128 } : Config).frame = 128 :=
  ⟨⟨eq_next_after (by decide +kernel), by decide +kernel⟩, ⟨eq_next_after (by decide +kernel), by decide +kernel⟩,
    rfl, rfl⟩

/-- P1 before step 1: the grain of ASSIGN 0, 0, 0, 1. -/
def p1Start : State := { p1 17 with voices := [idleVoice, idleVoice] }
def p1Grain : Voice := { Voice.reset with
  regs := { playing := true, busy := true, fmt := 0x81#8, base := 0, fileLen := 32#24, segStartW := 1#32, cursor := 1,
            segLen := 32#24, segTotal := 32#24, prior := 0#16, fadePos := 0#32, fadeRate := 0x07FFFFFF#32 }
  port := { responses := [.status .ok], emitted := [], faults := [], draws := 0 } }

/-- Program P1, step 1: also what the grain's registers are. -/
theorem witness_GrainTakesItsNumberOfFrames :
    p1Start.cfg.wf ∧ p1Start.voices[0]? = some idleVoice ∧ idleVoice.regs.playing = false ∧
    exec (.assign 0 (some 0) 0#32 1#32) p1Start = .next (after (exec (.assign 0 (some 0) 0#32 1#32) p1Start)) ∧
    (after (exec (.assign 0 (some 0) 0#32 1#32) p1Start)).voices[0]? = some p1Grain ∧
    p1Grain.regs.playing = true ∧ formatOf p1Grain.regs.fmt = some .pcm44 ∧
    framesOfGrain p1Start.cfg .pcm44 p1Grain.regs.segTotal.toNat = 2 ∧
    hasWords p1Start.mem 0 (p1Grain.regs.cursor + framesOfGrain p1Start.cfg .pcm44 p1Grain.regs.segTotal.toNat *
      wordsPerFrame p1Start.cfg .pcm44) = true :=
  ⟨by decide, rfl, rfl, eq_next_after (by decide +kernel), by decide +kernel, rfl, by decide, by decide,
    by decide +kernel⟩

/-- P1 with another word behind the last one its grain can read. -/
def p1Longer : List Host.Cell := writeWord (p1 17).mem 17 0xDEADBEEF#32

theorem witness_ReadsStayWithinTheOverrun :
    (p1 17).Inv ∧ (p1 17).voices[0]? = some p1Voice ∧ p1Voice.regs.playing = true ∧
    formatOf p1Voice.regs.fmt = some .pcm44 ∧
    (let bound := p1Voice.regs.segStartW.toNat +
       framesOfGrain (p1 17).cfg .pcm44 p1Voice.regs.segTotal.toNat * (nativesPerFrame (p1 17).cfg .pcm44 / spw .pcm44)
     bound = 17 ∧ hasWords (p1 17).mem p1Voice.regs.base bound = true ∧
     ∀ off < bound, wordAt p1Longer (p1Voice.regs.base + off) = wordAt (p1 17).mem (p1Voice.regs.base + off)) ∧
    p1Longer ≠ (p1 17).mem :=
  ⟨p1_inv, by decide, by decide, by decide, by decide +kernel, by decide +kernel⟩

/-- Idle; Playing with an unrecognised code; Playing with a recognised one. -/
theorem witness_QueryPosAnswersElapsedTime :
    (p3.voices[1]? = some idleVoice ∧ idleVoice.regs.playing = false) ∧
    (p3.voices[0]? = some p3Voice ∧ formatOf p3Voice.regs.fmt = none) ∧
    ((p1 17).voices[0]? = some p1Voice ∧ p1Voice.regs.playing = true ∧ formatOf p1Voice.regs.fmt = some .pcm44 ∧
      (p1 17).Inv ∧ (p1 17).cfg.kS2M = defaultS2M) ∧
    (p1Start.voices[0]? = some idleVoice ∧
      exec (.assign 0 (some 0) 0#32 1#32) p1Start = .next (after (exec (.assign 0 (some 0) 0#32 1#32) p1Start)) ∧
      (after (exec (.assign 0 (some 0) 0#32 1#32) p1Start)).voices[0]? = some p1Grain ∧
      p1Grain.port.responses = .status .ok :: idleVoice.port.responses) :=
  ⟨by decide, by decide, ⟨by decide, rfl, by decide, p1_inv, rfl⟩, rfl, eq_next_after (by decide +kernel),
    by decide +kernel, rfl⟩

/-- The same three. -/
theorem witness_QueryLenAnswersTotalTime :
    (p3.voices[1]? = some idleVoice ∧ idleVoice.regs.playing = false) ∧
    (p3.voices[0]? = some p3Voice ∧ formatOf p3Voice.regs.fmt = none) ∧
    ((p1 17).voices[0]? = some p1Voice ∧ p1Voice.regs.playing = true ∧ formatOf p1Voice.regs.fmt = some .pcm44 ∧
      (p1 17).cfg.kS2M = defaultS2M) := by decide

theorem witness_ScaledTimesFitTheResponse : cfg16.kS2M = defaultS2M ∧ 2 ^ 32 - 1 < 2 ^ 32 ∧
    (p1 17).voices[0]? = some p1Voice ∧ p1Voice.regs.playing = true ∧ formatOf p1Voice.regs.fmt = some .pcm44 := by decide

/-- Both values of the flag, and a PRODUCE that changes it. -/
theorem witness_IsPlayingAnswersTheFlag :
    p3.voices[0]? = some p3Voice ∧ p3.voices[1]? = some idleVoice ∧
    exec (.produce 0) p3 = .next (after (exec (.produce 0) p3)) ∧ p3Voice.regs.playing = true ∧
    ((after (exec (.produce 0) p3)).voices[0]?).map (fun y => y.regs.playing) = some false :=
  ⟨by decide, by decide, eq_next_after (by decide), rfl, by decide⟩
theorem witness_IsBusyAnswersTheFlag : (p1 17).voices[0]? = some p1Voice ∧ (p1 17).Inv := ⟨by decide, p1_inv⟩

theorem witness_OnlyTheNamedVoiceChanges :
    exec (.produce 0) p2 = .next (after (exec (.produce 0) p2)) ∧ (1 ≠ (Instr.produce 0).voice) :=
  ⟨eq_next_after (by decide +kernel), by decide⟩

/-- Every instruction the frame names, on one state. -/
theorem witness_RegistersEachInstructionMayWrite :
    (p2.voices[0]?).isSome = true ∧
    ([.decUlaw44 0#24 ⟨0, 0#32, 0#16⟩, .decPcm44 0#24 ⟨0, 0#32, 0#16⟩, .decUlaw22 0#24 ⟨0, 0#32, 0#16⟩,
      .decPcm22 0#24 ⟨0, 0#32, 0#16⟩, .decUlaw11 0#24 ⟨0, 0#32, 0#16⟩, .decPcm11 0#24 ⟨0, 0#32, 0#16⟩,
      .decUnrecognised 5#8 0#24 ⟨0, 0#32, 0#16⟩, .queryPos 0, .queryLen 0, .isPlaying 0, .isBusy 0, .produce 0,
      .assign 0 none 0#32 0#32] : List Instr).all (fun i => isNext (exec i p2) &&
        (match exec i p2 with
         | .next t => (t.voices[0]?).isSome
         | .fault _ => false
         | .refused _ => false)) = true := by decide +kernel

/-- A start, an end by exhaustion, an end by a decode fault. -/
theorem witness_OnlyTheseEventsStartOrStopAVoice :
    (exec (.assign 0 (some 0) 0#32 1#32) p1Start = .next (after (exec (.assign 0 (some 0) 0#32 1#32) p1Start)) ∧
      p1Start.voices[0]? = some idleVoice ∧ idleVoice.regs.playing = false ∧
      (after (exec (.assign 0 (some 0) 0#32 1#32) p1Start)).voices[0]? = some p1Grain ∧ p1Grain.regs.playing = true) ∧
    (exec (.produce 0) (p1 17) = .next (after (exec (.produce 0) (p1 17))) ∧ p1Voice.regs.playing = true ∧
      ((after (exec (.produce 0) (p1 17))).voices[0]?).map (fun y => y.regs.playing) = some false) ∧
    (exec (.produce 0) p3 = .next (after (exec (.produce 0) p3)) ∧ p3Voice.regs.playing = true ∧
      ((after (exec (.produce 0) p3)).voices[0]?).map (fun y => y.regs.playing) = some false) :=
  ⟨⟨eq_next_after (by decide +kernel), rfl, rfl, by decide +kernel, rfl⟩,
    ⟨eq_next_after (by decide +kernel), rfl, by decide +kernel⟩,
    eq_next_after (by decide), rfl, by decide⟩

theorem witness_PlayingGrainKeepsItsParameters :
    exec (.produce 0) p2 = .next (after (exec (.produce 0) p2)) ∧ p2.voices[0]? = some p2Voice ∧
    ((after (exec (.produce 0) p2)).voices[0]?).isSome = true ∧ p2Voice.regs.playing = true :=
  ⟨eq_next_after (by decide +kernel), by decide, by decide +kernel, rfl⟩

theorem witness_DifferentVoicesCommute :
    (Instr.produce 0).voice ≠ (Instr.isBusy 1).voice ∧
    exec (.produce 0) p2 = .next (after (exec (.produce 0) p2)) ∧
    exec (.isBusy 1) (after (exec (.produce 0) p2)) = .next (after (exec (.isBusy 1) (after (exec (.produce 0) p2)))) :=
  ⟨by decide, eq_next_after (by decide +kernel), eq_next_after (by decide +kernel)⟩

/-- Each alternative: a next state, a missing header, a missing payload word. -/
theorem witness_OnlyMissingWordsStopAnInstruction :
    p3.voices[(Instr.assign 1 (some 2) 0#32 0#32).voice]? = some idleVoice ∧ wordAt p3.mem 2 = none ∧
    p3.voices[(Instr.produce 0).voice]? = some p3Voice ∧
    (p1 16).voices[(Instr.produce 0).voice]? = some p1Voice := by decide +kernel

/-- The words of both of P1's frames. -/
def p1AllWords : List Word := [0xE4A8E0C0#32, 0xEC78E890#32, 0xF448F060#32, 0xFC18F830#32, 0x03E80000#32, 0x0BB807D0#32,
  0x13880FA0#32, 0x1B581770#32] ++ p1Words

/-- P1 straight after its ASSIGN, both frames of its grain. -/
theorem witness_DecodingCarriesAcrossFrames :
    let s : State := { p1 17 with voices := [p1Grain, idleVoice] }
    s.cfg.wf ∧ s.voices[0]? = some p1Grain ∧ p1Grain.regs.playing = true ∧ formatOf p1Grain.regs.fmt = some .pcm44 ∧
    p1AllWords.length = 2 * wordsPerFrame s.cfg .pcm44 ∧
    (2 - 1) * nativesPerFrame s.cfg .pcm44 < p1Grain.regs.segLen.toNat ∧
    hasWords s.mem p1Grain.regs.base (p1Grain.regs.cursor + p1AllWords.length) = true ∧
    ∀ k < p1AllWords.length, wordAt s.mem (p1Grain.regs.base + (p1Grain.regs.cursor + k)) = p1AllWords[k]? := by
  decide +kernel

/-- A finished run with a voice still Playing. -/
theorem witness_FinishedRunsAreThoseThatAnswered :
    (p1 17).resetLine = false ∧ (p1 17).Finished ∧ p1Voice ∈ (p1 17).voices ∧ p1Voice.regs.playing = true := by
  refine ⟨rfl, ⟨rfl, rfl, ?_⟩, by decide, rfl⟩
  intro x hx
  simp only [p1, machine, List.mem_cons, List.not_mem_nil, or_false] at hx
  rcases hx with rfl | rfl <;> rfl

theorem witness_PlacedWordsReadBack : (1 : Nat) ≠ 0 := by decide

end Sys2Proof.Tests
end

/-! SUPPORT. Noninterference of the unread registers (10_state.md R40): what `SameButUnread` says of two voices, that
every action of a voice and the reset event keep it, and the same of routing and of a step. -/

namespace Sys2Proof.Machine

/-! ### Two voices that differ only in unread registers -/

theorem Voice.SameButUnread.refl (x : Voice) : x.SameButUnread x :=
  ⟨rfl, rfl, rfl, fun _ => ⟨rfl, rfl, rfl, rfl, fun _ => rfl⟩⟩

theorem Voice.SameButUnread.of_eq {x y : Voice} (h : x = y) : x.SameButUnread y := h ▸ .refl x

/-- Idle voices need to agree in `busy` and in their ports only. -/
theorem Voice.SameButUnread.of_idle {x y : Voice} (hport : x.port = y.port) (hx : x.regs.playing = false)
    (hy : y.regs.playing = false) (hbusy : x.regs.busy = y.regs.busy) : x.SameButUnread y :=
  ⟨hport, hx.trans hy.symm, hbusy, fun hp => absurd (hx.symm.trans hp) Bool.false_ne_true⟩

/-- A voice that plays a recognised format has no unread register. -/
theorem Voice.SameButUnread.eq_of_recognised {x y : Voice} (h : x.SameButUnread y) (hp : x.regs.playing = true)
    {f : Fmt} (hf : formatOf x.regs.fmt = some f) : x = y := by
  obtain ⟨hport, -, -, hplaying⟩ := h
  obtain ⟨-, -, -, -, hregs⟩ := hplaying hp
  calc x = ⟨x.regs, x.port⟩ := rfl
    _ = ⟨y.regs, y.port⟩ := by rw [hregs (by simp [hf]), hport]

theorem Voice.SameButUnread.fmt_eq {x y : Voice} (h : x.SameButUnread y) (hp : x.regs.playing = true) :
    x.regs.fmt = y.regs.fmt := by
  obtain ⟨-, -, -, hplaying⟩ := h
  exact (hplaying hp).left

/-- The same answer to both voices. -/
theorem Voice.SameButUnread.respond {x y : Voice} (h : x.SameButUnread y) (a : Response) :
    (x.respond a).SameButUnread (y.respond a) := by
  obtain ⟨hport, hregs⟩ := h
  exact ⟨by simp only [Voice.respond, hport], hregs⟩

/-! ### The actions of a voice -/

/-- Two results of an action: the same fault, or two voices that differ only in unread registers. -/
inductive SameResult : Except Fault Voice → Except Fault Voice → Prop where
  | ok {x y : Voice} (h : x.SameButUnread y) : SameResult (.ok x) (.ok y)
  | error (e : Fault) : SameResult (.error e) (.error e)

theorem SameResult.refl : ∀ r : Except Fault Voice, SameResult r r
  | .ok x => .ok (.refl x)
  | .error e => .error e

/-- Equal answers to both voices. -/
theorem Voice.SameButUnread.answer {x y : Voice} (h : x.SameButUnread y) {a a' : Response} (ha : a = a') :
    SameResult (.ok (x.respond a)) (.ok (y.respond a')) :=
  ha ▸ .ok (h.respond a)

/-- R131: ASSIGN overwrites every register of a grain it starts. -/
theorem startGrain_eq (b : WordAddr) (f : Fmt) (n : Count) (start len : Nat) (x y : VoiceRegs) :
    startGrain b f n start len x = startGrain b f n start len y := rfl

/-- R132: of the voice before it, an ASSIGN of an unrecognised code keeps the port only. -/
theorem startUnrecognised_eq {x y : Voice} (h : x.port = y.port) (v : Nat) (b : WordAddr) (c : Byte) (n : Count) :
    startUnrecognised v b c n x = startUnrecognised v b c n y := by
  simp only [startUnrecognised, Voice.withRegs, setFlags, h]

theorem assignHeader_sameButUnread {x y : Voice} (h : x.SameButUnread y) (cfg : Config) (v : Nat) (b : WordAddr)
    (st ln hdr : Word) :
    (assignHeader cfg v b st ln hdr x).SameButUnread (assignHeader cfg v b st ln hdr y) := by
  have hport := h.left
  unfold assignHeader
  cases formatOf (headerCode hdr) with
  | none => exact .of_eq (by rw [startUnrecognised_eq hport])
  | some f =>
    dsimp only
    split
    · exact h.respond _
    · exact .of_eq (by rw [startGrain_eq b f _ _ _ x.regs y.regs]; simp only [Voice.withRegs, hport])

theorem assignVoice_sameResult {x y : Voice} (h : x.SameButUnread y) (cfg : Config) (m : List Host.Cell) (v : Nat)
    (sample : Option WordAddr) (st ln : Word) :
    SameResult (assignVoice cfg m v sample st ln x) (assignVoice cfg m v sample st ln y) := by
  have ⟨_, hplaying, _⟩ := h
  unfold assignVoice
  cases sample with
  | none => exact h.answer rfl
  | some b =>
    rw [← hplaying]
    dsimp only
    split
    · exact h.answer rfl
    · cases memRead m b 0 with
      | error e => exact .error e
      | ok hdr => exact .ok <| assignHeader_sameButUnread h cfg v b st ln hdr

/-- A decode fault idles both voices and logs the one code. -/
theorem takeDecodeFault_sameButUnread {x y : Voice} (h : x.SameButUnread y) (c : Byte) :
    (takeDecodeFault c x).SameButUnread (takeDecodeFault c y) := by
  have hport : ((x.withRegs (clearFlags x.regs)).logFault (.decodeFault c)).port =
      ((y.withRegs (clearFlags y.regs)).logFault (.decodeFault c)).port := by
    simp only [Voice.logFault, Voice.withRegs, h.left]
  exact (Voice.SameButUnread.of_idle hport rfl rfl rfl).respond .none

/-- R133: PRODUCE of an Idle voice. -/
theorem produceVoice_idle (cfg : Config) (m : List Host.Cell) {x : Voice} (hp : x.regs.playing = false) :
    produceVoice cfg m x = .ok (x.respond .none) := by
  simp [produceVoice, hp]

/-- R161: PRODUCE of a voice Playing with an unrecognised code. -/
theorem produceVoice_unrecognised (cfg : Config) (m : List Host.Cell) {x : Voice} (hp : x.regs.playing = true)
    (hf : formatOf x.regs.fmt = none) : produceVoice cfg m x = .ok (takeDecodeFault x.regs.fmt x) := by
  simp [produceVoice, hp, hf]

theorem produceVoice_sameResult {x y : Voice} (h : x.SameButUnread y) (cfg : Config) (m : List Host.Cell) :
    SameResult (produceVoice cfg m x) (produceVoice cfg m y) := by
  have ⟨_, hplaying, _⟩ := h
  cases hp : x.regs.playing with
  | false =>
    rw [produceVoice_idle cfg m hp, produceVoice_idle cfg m (hplaying ▸ hp)]
    exact h.answer rfl
  | true =>
    cases hf : formatOf x.regs.fmt with
    | some f => exact h.eq_of_recognised hp hf ▸ .refl _
    | none =>
      have hfmt := h.fmt_eq hp
      rw [produceVoice_unrecognised cfg m hp hf, produceVoice_unrecognised cfg m (hplaying ▸ hp) (hfmt ▸ hf), ← hfmt]
      exact .ok <| takeDecodeFault_sameButUnread h x.regs.fmt

/-- R136: QUERY_POS answers 0 for an Idle voice. -/
theorem positionMs_idle (cfg : Config) {x : VoiceRegs} (h : x.playing = false) : positionMs cfg x = 0#32 := by
  simp [positionMs, h]

/-- R137: QUERY_LEN answers 0 for an Idle voice. -/
theorem lengthMs_idle (cfg : Config) {x : VoiceRegs} (h : x.playing = false) : lengthMs cfg x = 0#32 := by
  simp [lengthMs, h]

theorem positionMs_unrecognised (cfg : Config) {x : VoiceRegs} (h : formatOf x.fmt = none) :
    positionMs cfg x = 0#32 := by
  simp [positionMs, h]

theorem lengthMs_unrecognised (cfg : Config) {x : VoiceRegs} (h : formatOf x.fmt = none) :
    lengthMs cfg x = 0#32 := by
  simp [lengthMs, h]

/-- A query that answers 0 for an Idle voice and for an unrecognised code reads no unread register. -/
theorem query_eq_of_sameButUnread {q : VoiceRegs → Word} (hidle : ∀ r : VoiceRegs, r.playing = false → q r = 0#32)
    (hunrec : ∀ r : VoiceRegs, formatOf r.fmt = none → q r = 0#32) {x y : Voice} (h : x.SameButUnread y) :
    q x.regs = q y.regs := by
  have ⟨_, hplaying, _⟩ := h
  cases hp : x.regs.playing with
  | false => rw [hidle _ hp, hidle _ (hplaying ▸ hp)]
  | true =>
    cases hf : formatOf x.regs.fmt with
    | some f => rw [h.eq_of_recognised hp hf]
    | none => rw [hunrec _ hf, hunrec _ (h.fmt_eq hp ▸ hf)]

/-- No action reads an unread register. -/
theorem voiceAct_sameResult {x y : Voice} (h : x.SameButUnread y) (cfg : Config) (m : List Host.Cell) (i : Instr) :
    SameResult (voiceAct cfg m i x) (voiceAct cfg m i y) := by
  have ⟨_, hplaying, hbusy, _⟩ := h
  cases i with
  | decUlaw44 | decPcm44 | decUlaw22 | decPcm22 | decUlaw11 | decPcm11 | decUnrecognised => exact h.answer rfl
  | assign v sample st ln => exact assignVoice_sameResult h cfg m v sample st ln
  | produce => exact produceVoice_sameResult h cfg m
  | queryPos =>
    exact h.answer (congrArg _ (query_eq_of_sameButUnread (fun _ => positionMs_idle cfg)
      (fun _ => positionMs_unrecognised cfg) h))
  | queryLen =>
    exact h.answer (congrArg _ (query_eq_of_sameButUnread (fun _ => lengthMs_idle cfg)
      (fun _ => lengthMs_unrecognised cfg) h))
  | isPlaying => exact h.answer (congrArg _ hplaying)
  | isBusy => exact h.answer (congrArg _ hbusy)

/-! ### The machine -/

/-- Related lists of voices have related voices, or none, at every index. -/
theorem voices_sameButUnread_getElem? {l l' : List Voice} (h : List.Forall₂ Voice.SameButUnread l l') (v : Nat) :
    (l[v]? = none ∧ l'[v]? = none) ∨ ∃ x y, l[v]? = some x ∧ l'[v]? = some y ∧ x.SameButUnread y := by
  induction h generalizing v with
  | nil => exact .inl ⟨rfl, rfl⟩
  | cons hxy _ ih =>
    cases v with
    | zero => exact .inr ⟨_, _, rfl, rfl, hxy⟩
    | succ v => exact ih v

theorem voices_sameButUnread_set {l l' : List Voice} (h : List.Forall₂ Voice.SameButUnread l l') (v : Nat)
    {x y : Voice} (hxy : x.SameButUnread y) : List.Forall₂ Voice.SameButUnread (l.set v x) (l'.set v y) := by
  induction h generalizing v with
  | nil => exact .nil
  | cons hab htail ih =>
    cases v with
    | zero => exact .cons hxy htail
    | succ v => exact .cons hab (ih v)

theorem State.SameButUnread.setVoice {s t : State} (h : s.SameButUnread t) (v : Nat) {x y : Voice}
    (hxy : x.SameButUnread y) : (s.setVoice v x).SameButUnread (t.setVoice v y) := by
  obtain ⟨hcfg, hmem, hcontrol, hproduction, hreset, hturns, hvoices⟩ := h
  exact ⟨hcfg, hmem, hcontrol, hproduction, hreset, hturns, voices_sameButUnread_set hvoices v hxy⟩

/-- Routing keeps the relation when the action does. -/
theorem onVoice_sameOutcome {s t : State} (h : s.SameButUnread t) (v : Nat) {act : Voice → Except Fault Voice}
    (hact : ∀ x y : Voice, x.SameButUnread y → SameResult (act x) (act y)) :
    SameOutcome State.SameButUnread (onVoice v s act) (onVoice v t act) := by
  have ⟨_, _, _, _, _, _, hvoices⟩ := h
  unfold onVoice
  rcases voices_sameButUnread_getElem? hvoices v with ⟨hs, ht⟩ | ⟨x, y, hs, ht, hxy⟩
  · rw [hs, ht]
    exact rfl
  · rw [hs, ht]
    have hres := hact x y hxy
    dsimp only
    generalize act x = r, act y = r' at hres
    cases hres with
    | ok hres => exact h.setVoice v hres
    | error e => exact rfl

theorem exec_sameOutcome {s t : State} (h : s.SameButUnread t) (i : Instr) :
    SameOutcome State.SameButUnread (exec i s) (exec i t) := by
  have ⟨hcfg, hmem, _⟩ := h
  rw [exec_eq_onVoice, exec_eq_onVoice, ← hcfg, ← hmem]
  exact onVoice_sameOutcome h i.voice fun x y hxy => voiceAct_sameResult hxy s.cfg s.mem i

/-! ### The reset event and the choice of a request -/

/-- R180: the reset event overwrites every register. -/
theorem resetVoice_eq {x y : Voice} (h : x.port = y.port) (v : Nat) : resetVoice v x = resetVoice v y := by
  simp only [resetVoice, Voice.drawn, h]

theorem resetVoices_eq {l l' : List Voice} (h : List.Forall₂ Voice.SameButUnread l l') (v : Nat) :
    resetVoices v l = resetVoices v l' := by
  induction h generalizing v with
  | nil => rfl
  | cons hxy _ ih => rw [resetVoices, resetVoices, resetVoice_eq hxy.left, ih]

theorem State.SameButUnread.applyReset {s t : State} (h : s.SameButUnread t) :
    (applyReset s).SameButUnread (applyReset t) := by
  obtain ⟨hcfg, hmem, hcontrol, hproduction, -, hturns, hvoices⟩ := h
  refine ⟨hcfg, hmem, hcontrol, hproduction, rfl, hturns, ?_⟩
  rw [applyReset_voices, applyReset_voices, resetVoices_eq hvoices]
  exact List.forall₂_same.mpr fun x _ => .refl x

theorem State.SameButUnread.outstanding_eq {s t : State} (h : s.SameButUnread t) : s.outstanding = t.outstanding := by
  obtain ⟨-, -, hcontrol, hproduction, -⟩ := h
  rw [State.outstanding, State.outstanding, hcontrol, hproduction]

theorem State.SameButUnread.servedIndex_eq {s t : State} (h : s.SameButUnread t) : servedIndex s = servedIndex t := by
  have ⟨_, _, _, _, _, hturns, _⟩ := h
  rw [servedIndex, servedIndex, h.outstanding_eq, hturns]

theorem State.SameButUnread.withoutRequest {s t : State} (h : s.SameButUnread t) (k : Nat) :
    (s.withoutRequest k).SameButUnread (t.withoutRequest k) := by
  have hout := h.outstanding_eq
  obtain ⟨hcfg, hmem, hcontrol, hproduction, hreset, hturns, hvoices⟩ := h
  refine ⟨hcfg, hmem, ?_, ?_, hreset, ?_, hvoices⟩
  · rw [withoutRequest_control, withoutRequest_control, hcontrol]
  · rw [withoutRequest_production, withoutRequest_production, hcontrol, hproduction]
  · rw [withoutRequest_turns, withoutRequest_turns, hout, hturns]

/-- The two states serve the same request, if any. -/
theorem State.SameButUnread.nextRequest_cases {s t : State} (h : s.SameButUnread t) :
    (nextRequest s = none ∧ nextRequest t = none) ∨
    ∃ r s' t', nextRequest s = some (r, s') ∧ nextRequest t = some (r, t') ∧ s'.SameButUnread t' := by
  unfold nextRequest
  rw [← h.servedIndex_eq, ← h.outstanding_eq]
  cases s.outstanding[servedIndex s]? with
  | none => exact .inl ⟨rfl, rfl⟩
  | some r => exact .inr ⟨r, _, _, rfl, rfl, h.withoutRequest _⟩

theorem step_sameOutcome {s t : State} (h : s.SameButUnread t) :
    SameOutcome State.SameButUnread (step s) (step t) := by
  have ⟨_, _, _, _, hreset, _⟩ := h
  unfold step
  rw [← hreset]
  split
  · exact h.applyReset
  · rcases h.nextRequest_cases with ⟨hs, ht⟩ | ⟨r, s', t', hs, ht, h'⟩
    · rw [hs, ht]
      exact h
    · rw [hs, ht]
      dsimp only
      cases decode r with
      | ok i => exact exec_sameOutcome h' i
      | error e => exact rfl

/-! ### Commands to an Idle voice -/

/-- An instruction whose voice exists and whose action succeeds gives a next state. -/
theorem exec_of_voiceAct {s : State} {i : Instr} {x x' : Voice} (hv : s.voices[i.voice]? = some x)
    (ha : voiceAct s.cfg s.mem i x = .ok x') : exec i s = .next (s.setVoice i.voice x') :=
  (exec_eq_onVoice i s).trans (onVoice_ok hv ha)

/-- R133: PRODUCE to an Idle voice answers `none` and changes no register. -/
theorem exec_produce_idle {s : State} {v : Nat} {x : Voice} (hv : s.voices[v]? = some x)
    (hp : x.regs.playing = false) : exec (.produce v) s = .next (s.setVoice v (x.respond .none)) :=
  exec_of_voiceAct (i := .produce v) hv (produceVoice_idle s.cfg s.mem hp)

theorem exec_queryPos_idle {s : State} {v : Nat} {x : Voice} (hv : s.voices[v]? = some x)
    (hp : x.regs.playing = false) : exec (.queryPos v) s = .next (s.setVoice v (x.respond (.millis 0#32))) :=
  exec_of_voiceAct (i := .queryPos v) hv (by simp only [voiceAct, positionMs_idle s.cfg hp])

theorem exec_queryLen_idle {s : State} {v : Nat} {x : Voice} (hv : s.voices[v]? = some x)
    (hp : x.regs.playing = false) : exec (.queryLen v) s = .next (s.setVoice v (x.respond (.millis 0#32))) :=
  exec_of_voiceAct (i := .queryLen v) hv (by simp only [voiceAct, lengthMs_idle s.cfg hp])

/-- Settles O9: every action of a voice keeps `Voice.SameButUnread`, so routing, the choice of a request and a step
keep `State.SameButUnread`. -/
theorem unspecifiedRegistersAreNeverRead : Obligations.UnspecifiedRegistersAreNeverRead :=
  ⟨fun _ _ h => step_sameOutcome h, fun _ _ _ hv hp =>
    ⟨exec_produce_idle hv hp, exec_queryPos_idle hv hp, exec_queryLen_idle hv hp⟩⟩

end Sys2Proof.Machine

/-! SUPPORT. What no step changes (20_memory.md R55, R64; 70_reset_and_hazards.md R181): the configuration with its
tables, the sample memory and the number of voices, of an instruction and of a step. -/

namespace Sys2Proof.Machine

/-- An instruction replaces one voice in its place, so the memory and the number of voices stay. -/
theorem exec_keeps_cfg_mem_voiceCount {i : Instr} {s t : State} (h : exec i s = .next t) :
    t.cfg = s.cfg ∧ t.mem = s.mem ∧ t.voices.length = s.voices.length := by
  obtain ⟨x, x', -, -, rfl⟩ := exec_next h
  exact ⟨setVoice_cfg .., setVoice_mem .., by simp⟩

/-- R55, R181: the reset event, a wait and a served request alike. -/
theorem step_keeps_cfg_mem_voiceCount {s t : State} (h : step s = .next t) :
    t.cfg = s.cfg ∧ t.mem = s.mem ∧ t.voices.length = s.voices.length := by
  rcases step_next h with ⟨-, rfl⟩ | ⟨-, -, rfl⟩ | ⟨-, r, s', i, hnext, -, hexec⟩
  · exact ⟨applyReset_cfg s, applyReset_mem s, resetVoices_length 0 s.voices⟩
  · exact ⟨rfl, rfl, rfl⟩
  · obtain ⟨-, rfl, -⟩ := nextRequest_some hnext
    simpa using exec_keeps_cfg_mem_voiceCount hexec

/-- Settles O7: a step keeps the whole configuration, the two tables with it, and the whole memory, so every byte. -/
theorem stepKeepsTablesAndSampleMemory : Obligations.StepKeepsTablesAndSampleMemory := by
  intro s t h
  obtain ⟨hcfg, hmem, hcount⟩ := step_keeps_cfg_mem_voiceCount h
  exact ⟨congrArg Config.fadeTable hcfg, congrArg Config.ulawTable hcfg, hcfg, hcount,
    fun a => congrArg (byteAt · a) hmem⟩

end Sys2Proof.Machine

/-! SUPPORT. The encodings (30_encoding.md R70, R75, R76, R80): the length and the fields of a header word, ASSIGN on a
header of count 0, and the refusal of a request that is no instruction. -/

namespace Sys2Proof

/-! ### Header words -/

/-- R80: the only length a header-layer request decodes at. -/
theorem header_length_of_decode_ok {r : Request} {i : Instr} (hlayer : r.layer = .header) (h : decode r = .ok i) :
    r.code.length = 4 := by
  unfold decode at h
  split at h
  case h_1 hcode => simp [hcode]
  case h_2 => cases h
  case h_3 hcommand _ => simp [hlayer] at hcommand
  case h_4 => cases h

theorem headerCode_toNat (w : Word) : (headerCode w).toNat = w.toNat / 2 ^ 24 := by
  have hw : w.toNat / 2 ^ 24 < 2 ^ 8 := by omega
  rw [headerCode, BitVec.extractLsb'_toNat, Nat.shiftRight_eq_div_pow, Nat.mod_eq_of_lt hw]

theorem headerCount_toNat (w : Word) : (headerCount w).toNat = w.toNat % 2 ^ 24 := by
  rw [headerCount, BitVec.extractLsb'_toNat, Nat.shiftRight_zero]

/-- R70: the two fields are the whole word. -/
theorem headerWord_headerCode_headerCount (w : Word) : headerWord (headerCode w) (headerCount w) = w := by
  apply BitVec.eq_of_toNat_eq
  rw [headerWord, BitVec.toNat_append, headerCode_toNat, headerCount_toNat,
    ← Nat.shiftLeft_add_eq_or_of_lt (Nat.mod_lt _ (by decide)), Nat.shiftLeft_eq, Nat.div_add_mod']

/-! ### Commands -/

/-- R75: a command's one byte carries `op` in its low three bits. -/
theorem decode_command {r : Request} {op : BitVec 3} (hlayer : r.layer = .command) (hcode : r.code = [op.setWidth 8]) :
    decode r = decodeCommand op r := by
  have hupper : (op.setWidth 8).extractLsb' 3 5 = 0#5 := by clear hcode; decide +revert
  have hop : (op.setWidth 8).extractLsb' 0 3 = op := by clear hcode hupper; decide +revert
  simp [decode, hlayer, hcode, hupper, hop]

/-- R76: `op` 0 and 7 name no command. -/
theorem decodeCommand_unused {op : BitVec 3} (h : op = 0#3 ∨ op = 7#3) (r : Request) :
    decodeCommand op r = .error (.noSuchCommand op) := by
  rcases h with rfl | rfl <;> rfl

end Sys2Proof

namespace Sys2Proof.Machine

/-! ### ASSIGN on a header of count 0 -/

/-- R57: the word at the base itself is read wherever it exists. -/
theorem memRead_base {m : List Host.Cell} {b : WordAddr} {w : Word} (h : wordAt m b = some w) :
    memRead m b 0 = .ok w :=
  (memRead_ok_iff m b 0 w).mpr ⟨by simp [hasWords, h], h⟩

/-- R131: an Idle voice reads the header word at the sample's address. -/
theorem assignVoice_idle {m : List Host.Cell} {b : WordAddr} {hdr : Word} {x : Voice} (hidle : x.regs.playing = false)
    (hword : wordAt m b = some hdr) (cfg : Config) (v : Nat) (st ln : Word) :
    assignVoice cfg m v (some b) st ln x = .ok (assignHeader cfg v b st ln hdr x) := by
  simp [assignVoice, hidle, memRead_base hword]

/-- R36 item 1: the segment lies inside the file, and this file is empty. -/
theorem segmentLen_of_count_zero (cfg : Config) (f : Fmt) (st ln : Word) : segmentLen cfg f 0#24 st ln = 0 := by
  have hinside : segmentStart cfg f 0#24 st + segmentLen cfg f 0#24 st ln ≤ 0 := segment_inside cfg f 0#24 st ln
  omega

/-- R131 step 2: the length test rejects every segment of an empty file. -/
theorem assignHeader_of_count_zero {hdr : Word} {f : Fmt} (hf : formatOf (headerCode hdr) = some f)
    (hzero : headerCount hdr = 0#24) (cfg : Config) (v : Nat) (b : WordAddr) (st ln : Word) (x : Voice) :
    assignHeader cfg v b st ln hdr x = x.respond (.status .rejLen) := by
  simp [assignHeader, hf, hzero, segmentLen_of_count_zero]

/-- Settles O14: the fields by their bits, and the empty segment that a count of 0 leaves. -/
theorem headerFieldsAreTheirBits : Obligations.HeaderFieldsAreTheirBits := by
  refine ⟨fun _ _ => header_length_of_decode_ok,
    fun w => ⟨headerCode_toNat w, headerCount_toNat w, headerWord_headerCode_headerCount w⟩, ?_⟩
  intro s v x b st ln hdr f hv hidle hword hf hzero
  apply exec_of_voiceAct (i := .assign v (some b) st ln) hv
  calc assignVoice s.cfg s.mem v (some b) st ln x
      = .ok (assignHeader s.cfg v b st ln hdr x) := assignVoice_idle hidle hword s.cfg v st ln
    _ = .ok (x.respond (.status .rejLen)) := by rw [assignHeader_of_count_zero hf hzero]

/-! ### Requests that are no instruction -/

/-- A request outstanding alone that does not decode is refused by the name of its error (R76, R80). -/
theorem step_of_decode_error {s : State} {r : Request} {e : DecodeError} (hreset : s.resetLine = false)
    (hout : s.outstanding = [r]) (hdecode : decode r = .error e) : step s = .refused (refusalOf e) := by
  simp [step, hreset, nextRequest_single hout, hdecode]

/-- Settles O13: whichever path holds the request, it is the one outstanding, and its `op` names no command. -/
theorem unusedOpsAreRefused : Obligations.UnusedOpsAreRefused := by
  intro s r op hop hlayer hcode hreset hlone
  have hdecode : decode r = .error (.noSuchCommand op) :=
    (decode_command hlayer hcode).trans (decodeCommand_unused hop r)
  have hout : s.outstanding = [r] := by
    rcases hlone with ⟨hc, hp⟩ | ⟨hc, hp⟩ <;> simp [State.outstanding, hc, hp]
  exact ⟨hdecode, step_of_decode_error hreset hout hdecode⟩

end Sys2Proof.Machine

/-! SUPPORT. The fade envelope (40_fade_table.md R90 to R96): the fields of a phase, the interpolation as one entry plus
a shifted difference and where that difference lies, the mirrored phase, repeated advances, the scaled sample. -/

namespace Sys2Proof.Machine

/-! ### The fields of a phase (R90) -/

theorem segmentIndex_val (p : Word) : (segmentIndex p).val = p.toNat / 2 ^ 24 := by
  have hp : p.toNat / 2 ^ 24 < 2 ^ 8 := by omega
  rw [segmentIndex, BitVec.val_toFin, BitVec.extractLsb'_toNat, Nat.shiftRight_eq_div_pow, Nat.mod_eq_of_lt hp]

theorem fraction_eq (p : Word) : fraction p = p.toNat / 2 ^ 8 % 2 ^ 16 := by
  rw [fraction, BitVec.extractLsb'_toNat, Nat.shiftRight_eq_div_pow]

theorem fraction_lt (p : Word) : fraction p < 65536 := BitVec.isLt _

/-- R16: the range of an i16. -/
theorem half_bounds (s : Half) : -32768 ≤ s.toInt ∧ s.toInt ≤ 32767 :=
  ⟨BitVec.le_toInt s, Int.le_of_lt_add_one BitVec.toInt_lt⟩

theorem fadeEntry_bounds (t : Vector Half 257) (i : Fin 257) : -32768 ≤ fadeEntry t i ∧ fadeEntry t i ≤ 32767 :=
  half_bounds t[i]

/-! ### The interpolation (R91) -/

/-- The two arrangements differ by a multiple of the divisor, which the floor lets through. -/
theorem asr_blend (a b f : Int) : asr (a * (65536 - f) + b * f) 16 = a + asr ((b - a) * f) 16 := by
  have hsplit : a * (65536 - f) + b * f = 2 ^ 16 * a + (b - a) * f := by ring
  rw [asr, asr, hsplit, Int.mul_add_ediv_left _ _ (by decide)]

theorem fadeLookup_eq (t : Vector Half 257) (p : Word) :
    fadeLookup t p = fadeEntry t (segmentIndex p).castSucc +
      asr ((fadeEntry t (segmentIndex p).succ - fadeEntry t (segmentIndex p).castSucc) * (fraction p : Int)) 16 :=
  asr_blend _ _ _

/-- Settles O29: the arrangements agree at every fraction, so at that of a phase. -/
theorem fadeArrangementsAgree : Obligations.FadeArrangementsAgree :=
  ⟨fun t0 t1 f _ => asr_blend t0 t1 f, fadeLookup_eq⟩

/-! ### The shifted difference (R95) -/

/-- A difference that rises, weighted by less than one whole. -/
theorem asr_mul_of_nonneg {d f : Int} (hd : 0 ≤ d) (hf : 0 ≤ f) (hf' : f < 65536) :
    0 ≤ asr (d * f) 16 ∧ asr (d * f) 16 ≤ d ∧ (0 < d → asr (d * f) 16 < d) := by
  have hlow : 0 ≤ d * f := Int.mul_nonneg hd hf
  have hhigh : d * f ≤ d * 65535 := Int.mul_le_mul_of_nonneg_left (by omega) hd
  rw [asr]
  omega

/-- A difference that falls: the floor goes towards the lower entry. -/
theorem asr_mul_of_neg {d f : Int} (hd : d < 0) (hf : 0 ≤ f) (hf' : f < 65536) :
    d ≤ asr (d * f) 16 ∧ asr (d * f) 16 ≤ 0 := by
  have hlow : d * 65535 ≤ d * f := Int.mul_le_mul_of_nonpos_left (by omega) (by omega)
  have hhigh : d * f ≤ 0 := Int.mul_nonpos_of_nonpos_of_nonneg (by omega) hf
  rw [asr]
  omega

/-- A falling i16 difference is reached at the largest fraction: what is missing is less than one unit, and the floor
takes it. -/
theorem asr_mul_largest_fraction {d : Int} (hd : d < 0) (hd' : -65536 < d) : asr (d * 65535) 16 = d := by
  rw [asr]
  omega

theorem fadeLookup_of_rising {t : Vector Half 257} {p : Word}
    (h : fadeEntry t (segmentIndex p).castSucc ≤ fadeEntry t (segmentIndex p).succ) :
    fadeEntry t (segmentIndex p).castSucc ≤ fadeLookup t p ∧ fadeLookup t p ≤ fadeEntry t (segmentIndex p).succ ∧
    (fadeEntry t (segmentIndex p).castSucc < fadeEntry t (segmentIndex p).succ →
      fadeLookup t p < fadeEntry t (segmentIndex p).succ) := by
  have hf := fraction_lt p
  have hdiff := asr_mul_of_nonneg (Int.sub_nonneg.mpr h) (Int.natCast_nonneg (fraction p)) (by omega)
  rw [fadeLookup_eq]
  omega

theorem fadeLookup_of_falling {t : Vector Half 257} {p : Word}
    (h : fadeEntry t (segmentIndex p).succ < fadeEntry t (segmentIndex p).castSucc) :
    fadeEntry t (segmentIndex p).succ ≤ fadeLookup t p ∧ fadeLookup t p ≤ fadeEntry t (segmentIndex p).castSucc := by
  have hf := fraction_lt p
  have hdiff := asr_mul_of_neg (Int.sub_neg_of_lt h) (Int.natCast_nonneg (fraction p)) (by omega)
  rw [fadeLookup_eq]
  omega

theorem fadeLookup_of_falling_largest_fraction {t : Vector Half 257} {p : Word}
    (h : fadeEntry t (segmentIndex p).succ < fadeEntry t (segmentIndex p).castSucc) (hf : fraction p = 65535) :
    fadeLookup t p = fadeEntry t (segmentIndex p).succ := by
  have ha := fadeEntry_bounds t (segmentIndex p).castSucc
  have hb := fadeEntry_bounds t (segmentIndex p).succ
  have hdiff := asr_mul_largest_fraction (Int.sub_neg_of_lt h) (by omega)
  rw [fadeLookup_eq, hf, Nat.cast_ofNat, hdiff]
  omega

/-- R95: in either direction the amplitude stays between the two entries. -/
theorem fadeLookup_between (t : Vector Half 257) (p : Word) :
    min (fadeEntry t (segmentIndex p).castSucc) (fadeEntry t (segmentIndex p).succ) ≤ fadeLookup t p ∧
    fadeLookup t p ≤ max (fadeEntry t (segmentIndex p).castSucc) (fadeEntry t (segmentIndex p).succ) := by
  rcases le_or_gt (fadeEntry t (segmentIndex p).castSucc) (fadeEntry t (segmentIndex p).succ) with hrise | hfall
  · have := fadeLookup_of_rising hrise
    omega
  · have := fadeLookup_of_falling hfall
    omega

/-- R95: under FT_RANGE the amplitude keeps the range of the entries. -/
theorem fadeLookup_range {cfg : Config} (h : cfg.FtRange) (p : Word) :
    0 ≤ fadeLookup cfg.fadeTable p ∧ fadeLookup cfg.fadeTable p ≤ cfg.fullScale.toInt := by
  obtain ⟨hlow, hhigh⟩ := fadeLookup_between cfg.fadeTable p
  have ⟨ha, ha'⟩ := h (segmentIndex p).castSucc
  have ⟨hb, hb'⟩ := h (segmentIndex p).succ
  exact ⟨(le_min ha hb).trans hlow, hhigh.trans (max_le ha' hb')⟩

/-- Settles O31: by the sign of the segment's difference; the range is that of the two entries. -/
theorem amplitudeStaysInItsSegment : Obligations.AmplitudeStaysInItsSegment := by
  refine ⟨fun t p => ?_, fun cfg p hrange hscale => ?_⟩
  · obtain ⟨hlow, hhigh⟩ := fadeLookup_between t p
    refine ⟨hlow, hhigh, fun hrise => ?_, fadeLookup_of_falling_largest_fraction⟩
    obtain ⟨-, -, hstrict⟩ := fadeLookup_of_rising hrise.le
    exact hstrict hrise
  · have hfull : cfg.fullScale.toInt = 32767 := by rw [hscale]; decide
    exact hfull ▸ fadeLookup_range hrange p

/-! ### The mirrored phase (R96) -/

theorem mirror_toNat (p : Word) : (0xFFFFFFFF#32 - p).toNat = 0xFFFFFFFF - p.toNat := by
  bv_omega

theorem segmentIndex_mirror (p : Word) : segmentIndex (0xFFFFFFFF#32 - p) = (segmentIndex p).rev := by
  apply Fin.ext
  rw [Fin.val_rev, segmentIndex_val, segmentIndex_val, mirror_toNat]
  omega

theorem fraction_mirror (p : Word) : fraction (0xFFFFFFFF#32 - p) = 65535 - fraction p := by
  rw [fraction_eq, fraction_eq, mirror_toNat]
  omega

theorem fadeEntry_rev {cfg : Config} (h : cfg.FtSym) (i : Fin 257) :
    fadeEntry cfg.fadeTable i.rev = fadeEntry cfg.fadeTable i :=
  congrArg BitVec.toInt (h i).symm

/-- R96: the mirrored phase reads the same two entries in the other order, with the fractions' weights exchanged but
for one unit. -/
theorem fadeLookup_mirror {cfg : Config} (h : cfg.FtSym) (p : Word) :
    fadeLookup cfg.fadeTable (0xFFFFFFFF#32 - p) = fadeEntry cfg.fadeTable (segmentIndex p).castSucc +
      asr ((fadeEntry cfg.fadeTable (segmentIndex p).succ - fadeEntry cfg.fadeTable (segmentIndex p).castSucc) *
        ((fraction p : Int) + 1)) 16 := by
  have hf := fraction_lt p
  have hcast : ((65535 - fraction p : Nat) : Int) = 65535 - (fraction p : Int) := by omega
  rw [← asr_blend, fadeLookup, segmentIndex_mirror, fraction_mirror, ← Fin.rev_succ, ← Fin.rev_castSucc,
    fadeEntry_rev h, fadeEntry_rev h, hcast]
  congr 1
  ring

/-- One more step of the weight moves the shifted difference by at most one: the difference is at most a whole. -/
theorem asr_mul_succ_sub_le_one {d : Int} (hd : -65536 ≤ d) (hd' : d ≤ 65536) (f : Int) :
    (asr (d * (f + 1)) 16 - asr (d * f) 16).natAbs ≤ 1 := by
  have hstep : d * (f + 1) = d * f + d := by ring
  rw [asr, asr, hstep]
  omega

theorem fadeLookup_mirror_sub_le_one {cfg : Config} (h : cfg.FtSym) (p : Word) :
    (fadeLookup cfg.fadeTable (0xFFFFFFFF#32 - p) - fadeLookup cfg.fadeTable p).natAbs ≤ 1 := by
  have ha := fadeEntry_bounds cfg.fadeTable (segmentIndex p).castSucc
  have hb := fadeEntry_bounds cfg.fadeTable (segmentIndex p).succ
  rw [fadeLookup_mirror h, fadeLookup_eq, Int.add_sub_add_left]
  exact asr_mul_succ_sub_le_one (by omega) (by omega) _

/-- A table that is 0 but for its middle entry, 1. -/
def peakTable : Vector Half 257 := Vector.ofFn fun i => if i = 128 then 1#16 else 0#16

/-- The configuration of the counterexample to R96's equality: only the table and FULL_SCALE matter. -/
def peakConfig : Config :=
  { frame := 16, fadeTable := peakTable, ulawTable := Vector.replicate 256 0#16, kM2S := defaultM2S,
    kS2M := defaultS2M, envShift := 15, fullScale := 32767#16 }

theorem peakTable_getElem (i : Fin 257) : peakTable[i] = if i = 128 then 1#16 else 0#16 := by
  simp [peakTable]

theorem peakConfig_ftSym : peakConfig.FtSym := by
  intro i
  have hmiddle : i.rev = 128 ↔ i = 128 := Fin.rev_eq_iff
  simp only [peakConfig, peakTable_getElem, hmiddle]

theorem peakConfig_ftRange : peakConfig.FtRange := by
  intro i
  simp only [peakConfig, peakTable_getElem]
  split <;> decide

/-- The last phase before the peak is floored to 0; its mirror image is the peak itself. -/
theorem peakTable_not_symmetric :
    fadeLookup peakTable 0x7FFFFF00#32 = 0 ∧ fadeLookup peakTable (0xFFFFFFFF#32 - 0x7FFFFF00#32) = 1 := by
  have hbefore : segmentIndex 0x7FFFFF00#32 = 127 ∧ fraction 0x7FFFFF00#32 = 65535 := by decide
  have hmirror : segmentIndex 0x800000FF#32 = 128 ∧ fraction 0x800000FF#32 = 0 := by decide
  have hentry : ∀ i, fadeEntry peakTable i = (if i = 128 then 1#16 else 0#16).toInt :=
    fun i => congrArg BitVec.toInt (peakTable_getElem i)
  simp only [fadeLookup, BitVec.reduceSub, hbefore, hmirror, hentry]
  decide

/-- Settles O32: the closed forms are `fadeLookup_eq` and `fadeLookup_mirror`; just before the peak of `peakTable` the
two values differ. -/
theorem envelopeIsSymmetricWithinOne : Obligations.EnvelopeIsSymmetricWithinOne := by
  refine ⟨fun cfg p h => ⟨fadeLookup_eq _ p, fadeLookup_mirror h p, fadeLookup_mirror_sub_le_one h p⟩,
    peakConfig, 0x7FFFFF00#32, peakConfig_ftSym, peakConfig_ftRange, ?_⟩
  obtain ⟨hbefore, hmirror⟩ := peakTable_not_symmetric
  simp only [peakConfig, hbefore, hmirror]
  decide

/-! ### Repeated advances (R93) -/

theorem phaseAfter_toNat (p r : Word) (n : Nat) :
    (phaseAfter p r n).toNat = min (p.toNat + n * r.toNat) 0xFFFFFFFF := by
  rw [phaseAfter, BitVec.toNat_ofNat, Nat.mod_eq_of_lt]
  omega

theorem fadeAdvance_toNat (p r : Word) : (fadeAdvance p r).toNat = min (p.toNat + r.toNat) 0xFFFFFFFF := by
  rw [fadeAdvance_eq, phaseAfter_toNat, Nat.one_mul]

theorem fadeAdvance_iterate (p r : Word) (n : Nat) : (fun q => fadeAdvance q r)^[n] p = phaseAfter p r n := by
  induction n with
  | zero => exact (phaseAfter_zero p r).symm
  | succ n ih => rw [Function.iterate_succ_apply', ih, fadeAdvance_eq, phaseAfter_add]

/-- Settles O33: n advances are the closed form `phaseAfter`, by induction on n. -/
theorem fadePhaseSaturates : Obligations.FadePhaseSaturates := by
  refine ⟨fadeAdvance_toNat, fun r => ?saturated, fun p => ?still, fun p r n => ?iterated⟩
  case saturated =>
    apply BitVec.eq_of_toNat_eq
    rw [fadeAdvance_toNat]
    exact min_eq_right (Nat.le_add_right _ _)
  case still =>
    apply BitVec.eq_of_toNat_eq
    rw [fadeAdvance_toNat]
    exact min_eq_left (Nat.le_of_lt_succ p.isLt)
  case iterated => rw [fadeAdvance_iterate, phaseAfter_toNat]

/-! ### The scaled sample (R94) -/

/-- A shifted product that fits 16 bits is not truncated. -/
theorem envApply_toInt {n : Nat} {s : Half} {amp : Int} (h : -32768 ≤ asr (s.toInt * amp) n)
    (h' : asr (s.toInt * amp) n ≤ 32767) : (envApply n s amp).toInt = asr (s.toInt * amp) n := by
  rw [envApply, trunc16, BitVec.toInt_ofInt]
  exact Int.bmod_eq_of_le (by simpa using h) (by simp; omega)

/-- The product of two i16 is below `2 ^ 30` in magnitude, or one of them is -32768. -/
theorem i16_mul_bounds {a b : Int} (ha : -32768 ≤ a) (ha' : a ≤ 32767) (hb : -32768 ≤ b) (hb' : b ≤ 32767)
    (h : ¬ (a = -32768 ∧ b = -32768)) : -(2 ^ 30) ≤ a * b ∧ a * b < 2 ^ 30 := by
  by_cases hmin : a = -32768
  · subst hmin
    omega
  · have hprod : |a * b| ≤ 32767 * 32768 := by
      rw [abs_mul]
      exact mul_le_mul (abs_le.mpr (by omega)) (abs_le.mpr (by omega)) (abs_nonneg b) (by decide)
    have := abs_le.mp hprod
    omega

/-- R94: the exact product, floored. -/
theorem envApply_exact {s : Half} {amp : Int} (h : -32768 ≤ amp) (h' : amp ≤ 32767)
    (hpair : ¬ (s.toInt = -32768 ∧ amp = -32768)) : (envApply 15 s amp).toInt = s.toInt * amp / 32768 := by
  obtain ⟨hs, hs'⟩ := half_bounds s
  obtain ⟨hlow, hhigh⟩ := i16_mul_bounds hs hs' h h' hpair
  exact envApply_toInt (by rw [asr]; omega) (by rw [asr]; omega)

/-- R94: the one pair whose shifted product, 32768, is no i16. -/
theorem envApply_excluded_pair {s : Half} (h : s.toInt = -32768) : (envApply 15 s (-32768)).toInt = -32768 := by
  rw [envApply, h]
  decide

/-- R94: an amplitude in the range of the table keeps a sample off both extremes. -/
theorem envApply_range {s : Half} {amp : Int} (h : 0 ≤ amp) (h' : amp ≤ 32767) :
    -32767 ≤ (envApply 15 s amp).toInt ∧ (envApply 15 s amp).toInt ≤ 32766 := by
  obtain ⟨hs, hs'⟩ := half_bounds s
  have hlow : -32768 * amp ≤ s.toInt * amp := Int.mul_le_mul_of_nonneg_right hs h
  have hhigh : s.toInt * amp ≤ 32767 * amp := Int.mul_le_mul_of_nonneg_right hs' h
  rw [envApply_exact (by omega) h' (by omega)]
  omega

theorem envApply_zero (s : Half) : (envApply 15 s 0).toInt = 0 := by
  rw [envApply_exact (by decide) (by decide) (by omega), Int.mul_zero, Int.zero_ediv]

/-- R94: full scale is the sample less its part in 32768, floored. -/
theorem envApply_full_scale (s : Half) : (envApply 15 s 32767).toInt = s.toInt * 32767 / 32768 :=
  envApply_exact (by decide) (by decide) (by omega)

/-- Settles O34: the exact product in every case but the excluded pair, read at the amplitudes the rule names. -/
theorem envelopeApplyIsExact : Obligations.EnvelopeApplyIsExact := by
  intro s amp h h'
  obtain ⟨hs, hs'⟩ := half_bounds s
  have hfull := envApply_full_scale s
  refine ⟨envApply_exact h h', ?excluded, fun hamp => envApply_range hamp h', ?zero, ?positive, ?null, ?negative,
    ?lowest⟩
  case excluded => rintro hlowest rfl; exact envApply_excluded_pair hlowest
  case zero => rintro rfl; exact envApply_zero s
  case positive | null | negative | lowest => rintro rfl; omega

end Sys2Proof.Machine

/-! SUPPORT. The sample-format decoder (41_format_decoder.md R105 to R117): a blend of two i16 samples as a weighted mean,
the outputs of INTERP and of the six decode operations as exact integers, and the counts of a frame. -/

namespace Sys2Proof.Machine

/-! ### The blends of INTERP (R108) -/

/-- A mean whose weights are parts of `2 ^ n`, floored, lies between the two values. -/
theorem asr_weighted_between {a b : Int} {n : Nat} (ha : 0 ≤ a) (hb : 0 ≤ b) (hab : a + b = 2 ^ n) (x y : Int) :
    min x y ≤ asr (a * x + b * y) n ∧ asr (a * x + b * y) n ≤ max x y := by
  have hlow : min x y * 2 ^ n ≤ a * x + b * y := by
    calc min x y * 2 ^ n = a * min x y + b * min x y := by rw [← hab]; ring
      _ ≤ a * x + b * y := by gcongr; exacts [min_le_left x y, min_le_right x y]
  have hhigh : a * x + b * y ≤ max x y * 2 ^ n := by
    calc a * x + b * y ≤ a * max x y + b * max x y := by gcongr; exacts [le_max_left x y, le_max_right x y]
      _ = max x y * 2 ^ n := by rw [← hab]; ring
  exact ⟨Int.le_ediv_of_mul_le (by positivity) hlow, Int.ediv_le_of_le_mul (by positivity) hhigh⟩

/-- R108: a blend whose weights are parts of `2 ^ n` is the floored mean, with no truncation. -/
theorem blend_weighted {a b : Int} {n : Nat} (ha : 0 ≤ a) (hb : 0 ≤ b) (hab : a + b = 2 ^ n) (p s : Half) :
    (blend a b n p s).toInt = asr (a * p.toInt + b * s.toInt) n := by
  have hp := half_bounds p
  have hs := half_bounds s
  have hmean := asr_weighted_between ha hb hab p.toInt s.toInt
  exact blend_toInt (by omega) (by omega)

/-- R108: a blend whose weights are parts of `2 ^ n` lies between its two samples. -/
theorem blend_between {a b : Int} {n : Nat} (ha : 0 ≤ a) (hb : 0 ≤ b) (hab : a + b = 2 ^ n) (p s : Half) :
    min p.toInt s.toInt ≤ (blend a b n p s).toInt ∧ (blend a b n p s).toInt ≤ max p.toInt s.toInt :=
  blend_weighted ha hb hab p s ▸ asr_weighted_between ha hb hab p.toInt s.toInt

/-- The half blend of ratios 2 and 4. -/
theorem blend_half (p s : Half) : (blend 1 1 1 p s).toInt = (p.toInt + s.toInt) / 2 := by
  rw [blend_weighted (by decide) (by decide) (by decide), one_mul, one_mul]
  rfl

/-- The quarter blend of ratio 4: three parts of the prior. -/
theorem blend_quarter (p s : Half) : (blend 3 1 2 p s).toInt = (3 * p.toInt + s.toInt) / 4 := by
  rw [blend_weighted (by decide) (by decide) (by decide), one_mul]
  rfl

/-- The three-quarter blend of ratio 4: three parts of the new sample. -/
theorem blend_three_quarters (p s : Half) : (blend 1 3 2 p s).toInt = (p.toInt + 3 * s.toInt) / 4 := by
  rw [blend_weighted (by decide) (by decide) (by decide), one_mul]
  rfl

/-! ### INTERP (R108) -/

theorem interp_r44100_toInt (p s : Half) : (interp .r44100 p s).map BitVec.toInt = [s.toInt] := rfl

theorem interp_r22050_toInt (p s : Half) :
    (interp .r22050 p s).map BitVec.toInt = [(p.toInt + s.toInt) / 2, s.toInt] := by
  simp only [interp, List.map_cons, List.map_nil, blend_half]

theorem interp_r11025_toInt (p s : Half) :
    (interp .r11025 p s).map BitVec.toInt =
      [(3 * p.toInt + s.toInt) / 4, (p.toInt + s.toInt) / 2, (p.toInt + 3 * s.toInt) / 4, s.toInt] := by
  simp only [interp, List.map_cons, List.map_nil, blend_half, blend_quarter, blend_three_quarters]

theorem interp_getLast? (r : Rate) (p s : Half) : (interp r p s).getLast? = some s := by
  cases r <;> rfl

theorem interp_length (r : Rate) (p s : Half) : (interp r p s).length = ratioOfRate r := by
  cases r <;> rfl

/-- R108: every output is a blend of the two samples or the new sample itself. -/
theorem interp_between {r : Rate} {p s o : Half} (h : o ∈ interp r p s) :
    min p.toInt s.toInt ≤ o.toInt ∧ o.toInt ≤ max p.toInt s.toInt := by
  have hself : min p.toInt s.toInt ≤ s.toInt ∧ s.toInt ≤ max p.toInt s.toInt := ⟨min_le_right _ _, le_max_right _ _⟩
  have hhalf := blend_between (a := 1) (b := 1) (n := 1) (by decide) (by decide) (by decide) p s
  cases r with
  | r44100 => exact List.mem_singleton.mp h ▸ hself
  | r22050 =>
    simp only [interp, List.mem_cons, List.not_mem_nil, or_false] at h
    obtain rfl | rfl := h
    exacts [hhalf, hself]
  | r11025 =>
    simp only [interp, List.mem_cons, List.not_mem_nil, or_false] at h
    obtain rfl | rfl | rfl | rfl := h
    exacts [blend_between (by decide) (by decide) (by decide) p s, hhalf,
      blend_between (by decide) (by decide) (by decide) p s, hself]

/-- Settles O26: the blends are floored means, so exact and between their samples. -/
theorem interpolationIsExactAndInRange : Obligations.InterpolationIsExactAndInRange :=
  fun p s => ⟨interp_r44100_toInt p s, interp_r22050_toInt p s, interp_r11025_toInt p s,
    fun r => ⟨interp_getLast? r p s, interp_length r p s, fun _ => interp_between⟩⟩

/-! ### The six decode operations (R110 to R115) -/

/-- The outputs of R109's loop as integers: one INTERP after the other, each from the native sample before it. -/
theorem interpAll_cons_toInt (r : Rate) (s : Half) (l : List Half) (p : Half) :
    (interpAll r (s :: l) p).1.map BitVec.toInt =
      (interp r p s).map BitVec.toInt ++ (interpAll r l s).1.map BitVec.toInt :=
  List.map_append

/-- Settles O17: each operation is R109's loop over its word's native samples, and the loop's outputs are those of
INTERP at the operation's rate; at ratio 1 they are the native samples themselves. -/
theorem decodeOperationsFollowTheirPseudocode : Obligations.DecodeOperationsFollowTheirPseudocode := by
  intro t w p
  refine ⟨⟨rfl, rfl, rfl⟩, ⟨rfl, rfl, rfl⟩, ⟨rfl, rfl, ?ulaw22⟩, ⟨rfl, rfl, ?pcm22⟩, ⟨rfl, rfl, ?ulaw11⟩,
    ⟨rfl, rfl, ?pcm11⟩⟩
  case ulaw22 | pcm22 =>
    simp only [decodeOp_eq, decodeWord, rateOf, encodingOf, natives, interpAll_cons_toInt, interp_r22050_toInt]
    rfl
  case ulaw11 | pcm11 =>
    simp only [decodeOp_eq, decodeWord, rateOf, encodingOf, natives, interpAll_cons_toInt, interp_r11025_toInt]
    rfl

/-! ### Counts (R117) -/

theorem rawOutputs_length (u : Vector Half 256) (f : Fmt) (ws : List Word) (p : Half) :
    (rawOutputs u f ws p).1.length = ws.length * opw f := by
  induction ws generalizing p with
  | nil => simp [rawOutputs]
  | cons w ws ih =>
    rw [rawOutputs, List.length_append, decodeWord_length, ih, List.length_cons, Nat.succ_mul, Nat.add_comm]

/-- Every OPW divides 16, and so every legal FRAME. -/
theorem opw_dvd_frame {cfg : Config} (h : cfg.wf) (f : Fmt) : opw f ∣ cfg.frame := by
  have hopw : opw f ∣ 16 := by cases f <;> decide
  exact hopw.trans (Nat.dvd_of_mod_eq_zero h.2)

theorem ratio_pos (f : Fmt) : 0 < ratio f := by
  cases f <;> decide

theorem wordsPerFrame_mul_opw {cfg : Config} (h : cfg.wf) (f : Fmt) : wordsPerFrame cfg f * opw f = cfg.frame :=
  Nat.div_mul_cancel (opw_dvd_frame h f)

theorem wordsPerFrame_mul_spw {cfg : Config} (h : cfg.wf) (f : Fmt) :
    wordsPerFrame cfg f * spw f = nativesPerFrame cfg f := by
  have hframe : wordsPerFrame cfg f * spw f * ratio f = cfg.frame := by
    rw [Nat.mul_assoc]
    exact wordsPerFrame_mul_opw h f
  exact Nat.eq_div_of_mul_eq_left (ratio_pos f).ne' hframe

theorem nativesPerFrame_mul_ratio {cfg : Config} (h : cfg.wf) (f : Fmt) :
    nativesPerFrame cfg f * ratio f = cfg.frame :=
  Nat.div_mul_cancel ((Nat.dvd_mul_left (ratio f) (spw f)).trans (opw_dvd_frame h f))

/-- Settles O27: the outputs by induction on the words; a legal FRAME is a multiple of every OPW, so of every RATIO. -/
theorem decodedCountIsExact : Obligations.DecodedCountIsExact :=
  ⟨rawOutputs_length, by decide, fun _ f h =>
    ⟨wordsPerFrame_mul_opw h f, nativesPerFrame_mul_ratio h f, wordsPerFrame_mul_spw h f⟩⟩

end Sys2Proof.Machine

/-! SUPPORT. ASSIGN and PRODUCE by their pseudocode (42_voice_player.md R131 to R135): the voice an instruction acts on,
an equation per branch of ASSIGN, the loop of PRODUCE up to a word that is missing, exhaustion. -/

namespace Sys2Proof.Machine

/-! ### The voice an instruction acts on -/

theorem setVoice_getElem?_self {s : State} {v : Nat} {x : Voice} (hv : s.voices[v]? = some x) (y : Voice) :
    (s.setVoice v y).voices[v]? = some y := by
  obtain ⟨hlt, -⟩ := List.getElem?_eq_some_iff.mp hv
  rw [setVoice_voices, List.getElem?_set_self hlt]

@[simp] theorem setVoice_setVoice (s : State) (v : Nat) (x y : Voice) :
    (s.setVoice v x).setVoice v y = s.setVoice v y := by
  simp only [State.setVoice, List.set_set]

/-- R176: a voice before and after an instruction: the instruction is for another one and left it alone, or it is the
result of its own action. -/
theorem exec_next_voice {i : Instr} {s t : State} {v : Nat} {x y : Voice} (h : exec i s = .next t)
    (hx : s.voices[v]? = some x) (hy : t.voices[v]? = some y) :
    (i.voice ≠ v ∧ y = x) ∨ (i.voice = v ∧ voiceAct s.cfg s.mem i x = .ok y) := by
  obtain ⟨x', y', hx', hact, rfl⟩ := exec_next h
  by_cases hvoice : i.voice = v
  · subst hvoice
    obtain rfl : x' = x := Option.some.inj (hx'.symm.trans hx)
    obtain rfl : y' = y := Option.some.inj ((setVoice_getElem?_self hx y').symm.trans hy)
    exact .inr ⟨rfl, hact⟩
  · rw [setVoice_voices, List.getElem?_set_ne hvoice, hx] at hy
    exact .inl ⟨hvoice, (Option.some.inj hy).symm⟩

theorem exec_produce_next_voice {s t : State} {v : Nat} {x y : Voice} (h : exec (.produce v) s = .next t)
    (hx : s.voices[v]? = some x) (hy : t.voices[v]? = some y) : produceVoice s.cfg s.mem x = .ok y := by
  rcases exec_next_voice h hx hy with ⟨hne, -⟩ | ⟨-, hact⟩
  · exact absurd rfl hne
  · exact hact

theorem exec_assign_next_voice {s t : State} {v : Nat} {sample : Option WordAddr} {st ln : Word} {x y : Voice}
    (h : exec (.assign v sample st ln) s = .next t) (hx : s.voices[v]? = some x) (hy : t.voices[v]? = some y) :
    assignVoice s.cfg s.mem v sample st ln x = .ok y := by
  rcases exec_next_voice h hx hy with ⟨hne, -⟩ | ⟨-, hact⟩
  · exact absurd rfl hne
  · exact hact

/-- An instruction whose voice exists and whose action faults stops the machine. -/
theorem exec_of_voiceAct_error {s : State} {i : Instr} {x : Voice} {e : Fault} (hv : s.voices[i.voice]? = some x)
    (ha : voiceAct s.cfg s.mem i x = .error e) : exec i s = .fault e := by
  simp [exec_eq_onVoice, onVoice, hv, ha]

theorem exec_assign_ok {s : State} {v : Nat} {sample : Option WordAddr} {st ln : Word} {x y : Voice}
    (hv : s.voices[v]? = some x) (ha : assignVoice s.cfg s.mem v sample st ln x = .ok y) :
    exec (.assign v sample st ln) s = .next (s.setVoice v y) :=
  exec_of_voiceAct (i := .assign v sample st ln) hv ha

theorem exec_produce_ok {s : State} {v : Nat} {x y : Voice} (hv : s.voices[v]? = some x)
    (ha : produceVoice s.cfg s.mem x = .ok y) : exec (.produce v) s = .next (s.setVoice v y) :=
  exec_of_voiceAct (i := .produce v) hv ha

/-! ### Format codes -/

theorem formatOf_formatCode (f : Fmt) : formatOf (formatCode f) = some f := by
  cases f <;> rfl

/-- R71: a recognised code is the code of its format. -/
theorem formatCode_of_formatOf {c : Byte} {f : Fmt} (h : formatOf c = some f) : formatCode f = c := by
  unfold formatOf at h
  split_ifs at h <;> obtain rfl := Option.some.inj h <;> exact Eq.symm ‹_›

/-! ### ASSIGN (R131, R132) -/

theorem assignVoice_busy {x : Voice} (hp : x.regs.playing = true) (cfg : Config) (m : List Host.Cell) (v : Nat)
    (b : WordAddr) (st ln : Word) :
    assignVoice cfg m v (some b) st ln x = .ok (x.respond (.status .rejBusy)) := by
  simp [assignVoice, hp]

/-- R163: the header's word does not exist. -/
theorem assignVoice_missing {m : List Host.Cell} {b : WordAddr} {x : Voice} (hp : x.regs.playing = false)
    (hword : wordAt m b = none) (cfg : Config) (v : Nat) (st ln : Word) :
    assignVoice cfg m v (some b) st ln x = .error (.memFault b) := by
  have hread : memRead m b 0 = .error (.memFault b) := (memRead_error_iff ..).mpr ⟨by simp [hasWords, hword], rfl⟩
  simp [assignVoice, hp, hread]

theorem assignHeader_unrecognised {hdr : Word} (hf : formatOf (headerCode hdr) = none) (cfg : Config) (v : Nat)
    (b : WordAddr) (st ln : Word) (x : Voice) :
    assignHeader cfg v b st ln hdr x =
      (startUnrecognised v b (headerCode hdr) (headerCount hdr) x).respond (.status .ok) := by
  simp [assignHeader, hf]

theorem assignHeader_empty {cfg : Config} {hdr : Word} {f : Fmt} {st ln : Word}
    (hf : formatOf (headerCode hdr) = some f) (hlen : segmentLen cfg f (headerCount hdr) st ln < 1) (v : Nat)
    (b : WordAddr) (x : Voice) : assignHeader cfg v b st ln hdr x = x.respond (.status .rejLen) := by
  simp [assignHeader, hf, hlen]

theorem assignHeader_grain {cfg : Config} {hdr : Word} {f : Fmt} {st ln : Word}
    (hf : formatOf (headerCode hdr) = some f) (hlen : 1 ≤ segmentLen cfg f (headerCount hdr) st ln) (v : Nat)
    (b : WordAddr) (x : Voice) :
    assignHeader cfg v b st ln hdr x =
      (x.withRegs (startGrain b f (headerCount hdr) (segmentStart cfg f (headerCount hdr) st)
        (segmentLen cfg f (headerCount hdr) st ln) x.regs)).respond (.status .ok) := by
  simp [assignHeader, hf, Nat.not_lt.mpr hlen]

/-- The word offset of a segment's start fits its register: the start is within a 24-bit count. -/
theorem segStartW_toNat (cfg : Config) (f : Fmt) (n : Count) (st : Word) :
    (BitVec.ofNat 32 (1 + segmentStart cfg f n st / spw f)).toNat = 1 + segmentStart cfg f n st / spw f := by
  have hstart : segmentStart cfg f n st ≤ n.toNat := Nat.min_le_right _ _
  have hword : segmentStart cfg f n st / spw f ≤ segmentStart cfg f n st := Nat.div_le_self _ _
  rw [BitVec.toNat_ofNat, Nat.mod_eq_of_lt]
  omega

/-- R131: all twelve registers of a grain. -/
theorem startGrain_segment (cfg : Config) (b : WordAddr) (f : Fmt) (n : Count) (st : Word) (len : Nat)
    (x : VoiceRegs) :
    startGrain b f n (segmentStart cfg f n st) len x =
      { playing := true, busy := true, fmt := formatCode f, base := b, fileLen := n,
        segStartW := BitVec.ofNat 32 (1 + segmentStart cfg f n st / spw f),
        cursor := 1 + segmentStart cfg f n st / spw f, segLen := BitVec.ofNat 24 len,
        segTotal := BitVec.ofNat 24 len, prior := 0#16, fadePos := 0#32,
        fadeRate := BitVec.ofNat 32 (0xFFFFFFFF / len) } := by
  simp only [startGrain, setFlags, segStartW_toNat]

/-- The length of a segment fits its register: it is within a 24-bit count. -/
theorem segmentLen_toNat (cfg : Config) (f : Fmt) (n : Count) (st ln : Word) :
    (BitVec.ofNat 24 (segmentLen cfg f n st ln)).toNat = segmentLen cfg f n st ln := by
  have hinside := segment_inside cfg f n st ln
  rw [BitVec.toNat_ofNat, Nat.mod_eq_of_lt]
  omega

/-- The outcomes of an ASSIGN that answers: a rejection, a voice Playing an unrecognised code, or a grain. -/
theorem assignVoice_outcome {cfg : Config} {m : List Host.Cell} {v : Nat} {sample : Option WordAddr} {st ln : Word}
    {x y : Voice} (h : assignVoice cfg m v sample st ln x = .ok y) :
    (∃ a : Status, a ≠ .ok ∧ y = x.respond (.status a)) ∨
    (∃ b c n, sample = some b ∧ x.regs.playing = false ∧ formatOf c = none ∧
      y = (startUnrecognised v b c n x).respond (.status .ok)) ∨
    (∃ b f n, sample = some b ∧ x.regs.playing = false ∧ 1 ≤ segmentLen cfg f n st ln ∧
      y = (x.withRegs (startGrain b f n (segmentStart cfg f n st) (segmentLen cfg f n st ln) x.regs)).respond
        (.status .ok)) := by
  rcases assignVoice_ok h with ⟨-, rfl⟩ | ⟨b, -, -, rfl⟩ | ⟨b, hdr, hsample, hidle, -, rfl⟩
  · exact .inl ⟨.rejNull, by decide, rfl⟩
  · exact .inl ⟨.rejBusy, by decide, rfl⟩
  · rcases assignHeader_cases cfg v b st ln hdr x with ⟨hf, hy⟩ | ⟨f, -, -, hy⟩ | ⟨f, -, hlen, hy⟩
    · exact .inr (.inl ⟨b, _, _, hsample, hidle, hf, hy⟩)
    · exact .inl ⟨.rejLen, by decide, hy⟩
    · exact .inr (.inr ⟨b, f, _, hsample, hidle, hlen, hy⟩)

/-- Settles O37: one equation per branch of the rule; the start's word offset does not wrap. -/
theorem assignFollowsItsPseudocode : Obligations.AssignFollowsItsPseudocode := by
  intro s v x st ln hv
  refine ⟨exec_assign_ok hv rfl, fun b => ⟨rfl,
    fun hp => exec_assign_ok hv (assignVoice_busy hp s.cfg s.mem v b st ln),
    fun hp hword => exec_of_voiceAct_error (i := .assign ..) hv (assignVoice_missing hp hword s.cfg v st ln),
    ?header⟩⟩
  intro hdr f hp hword hf k flen start len0 len
  have hlen : segmentLen s.cfg f (headerCount hdr) st ln = len := rfl
  have hexec := exec_assign_ok hv (assignVoice_idle hp hword s.cfg v st ln)
  refine ⟨fun hempty => ?_, fun hsome => ?_⟩
  · rw [hexec, assignHeader_empty hf (hlen ▸ hempty)]
  · rw [hexec, assignHeader_grain hf (hlen ▸ hsome), startGrain_segment, formatCode_of_formatOf hf]
    rfl

/-- Settles O39: the registers R132 gives, and the fault of the PRODUCE that finds the code latched. -/
theorem assignAcceptsAnUnrecognisedCode : Obligations.AssignAcceptsAnUnrecognisedCode := by
  intro s v x b st ln hdr hv hidle hword hf
  have hassign := assignVoice_idle hidle hword s.cfg v st ln
  rw [assignHeader_unrecognised hf] at hassign
  refine ⟨_, exec_assign_ok hv hassign, rfl, rfl, rfl, rfl, rfl, rfl, rfl, rfl, rfl, ?produce⟩
  refine (exec_produce_ok (setVoice_getElem?_self hv _) (produceVoice_unrecognised s.cfg s.mem rfl hf)).trans ?_
  rw [setVoice_setVoice]
  rfl

/-! ### The loop of PRODUCE over its words (R133) -/

/-- R117: a frame's length is that of its words' outputs. -/
theorem frameLoop_length {cfg : Config} {m : List Host.Cell} {f : Fmt} {n : Nat} {x x' : VoiceRegs}
    {frame : List Half} (h : frameLoop cfg m f n x = .ok (frame, x')) : frame.length = n * opw f := by
  induction n generalizing x frame with
  | zero =>
    simp only [frameLoop, Except.ok.injEq, Prod.mk.injEq] at h
    obtain ⟨rfl, -⟩ := h
    rw [List.length_nil, Nat.zero_mul]
  | succ n ih =>
    obtain ⟨w, rest, -, hrest, rfl⟩ := frameLoop_succ_ok h
    rw [List.length_append, ih hrest, wordFrame, wordRaw, decodeOp_eq, scaleAll_fst, scaledFrame, List.length_mapIdx,
      decodeWord_length, Nat.succ_mul, Nat.add_comm]

theorem hasWords_of_le {m : List Host.Cell} {base n n' : Nat} (h : hasWords m base n = true) (hle : n' ≤ n) :
    hasWords m base n' = true :=
  (hasWords_iff ..).mpr fun k hk => (hasWords_iff ..).mp h k (Nat.lt_of_lt_of_le hk hle)

/-- R163: the loop stops at the first word missing. -/
theorem frameLoop_memFault (cfg : Config) {m : List Host.Cell} (f : Fmt) {n k : Nat} {x : VoiceRegs} (hk : k < n)
    (hmissing : hasWords m x.base (x.cursor + k + 1) = false)
    (hbelow : ∀ j < k, hasWords m x.base (x.cursor + j + 1) = true) :
    frameLoop cfg m f n x = .error (.memFault (x.base + (x.cursor + k))) := by
  induction n generalizing k x with
  | zero => exact absurd hk (Nat.not_lt_zero k)
  | succ n ih =>
    cases k with
    | zero =>
      have hread := (memRead_error_iff ..).mpr ⟨hmissing, rfl⟩
      simp only [frameLoop, Nat.add_zero] at hread ⊢
      rw [hread]
    | succ k =>
      have hshift : ∀ j, x.cursor + (j + 1) = x.cursor + 1 + j := fun j => by omega
      rcases memRead_cases m x.base x.cursor with ⟨w, hread, -, -⟩ | ⟨-, hno⟩
      · have hrest := ih (x := afterWord cfg f w x) (by omega) (hshift k ▸ hmissing)
          (fun j hj => hshift j ▸ hbelow (j + 1) (by omega))
        rw [afterWord_base, afterWord_cursor, ← hshift] at hrest
        simp only [frameLoop, hread, hrest]
      · exact absurd (hno.symm.trans (hbelow 0 (by omega))) Bool.false_ne_true

/-- If a word of a run of `n` is missing, there is a first one. -/
theorem exists_first_missing {m : List Host.Cell} {base off n : Nat} (hn : 0 < n)
    (h : hasWords m base (off + n) = false) :
    ∃ k < n, hasWords m base (off + k + 1) = false ∧ ∀ j < k, hasWords m base (off + j + 1) = true := by
  have hlast : hasWords m base (off + (n - 1) + 1) = false := by
    rwa [Nat.add_assoc, Nat.sub_add_cancel hn]
  have hex : ∃ k, hasWords m base (off + k + 1) = false := ⟨n - 1, hlast⟩
  refine ⟨Nat.find hex, ?_, Nat.find_spec hex, fun j hj => by simpa using Nat.find_min hex hj⟩
  have := Nat.find_min' hex hlast
  omega

/-! ### Exhaustion (R135) -/

theorem endOfFrame_exhausted {cfg : Config} {f : Fmt} {x : VoiceRegs} (h : x.segLen.toNat ≤ nativesPerFrame cfg f) :
    endOfFrame cfg f x = clearFlags x := if_pos h

theorem endOfFrame_continues {cfg : Config} {f : Fmt} {x : VoiceRegs} (h : nativesPerFrame cfg f < x.segLen.toNat) :
    endOfFrame cfg f x = { x with segLen := BitVec.ofNat 24 (x.segLen.toNat - nativesPerFrame cfg f) } :=
  if_neg (Nat.not_le.mpr h)

theorem endOfFrame_segLen_toNat {cfg : Config} {f : Fmt} {x : VoiceRegs}
    (h : nativesPerFrame cfg f < x.segLen.toNat) :
    (endOfFrame cfg f x).segLen.toNat = x.segLen.toNat - nativesPerFrame cfg f := by
  rw [endOfFrame_continues h, BitVec.toNat_ofNat, Nat.mod_eq_of_lt]
  omega

@[simp] theorem endOfFrame_cursor (cfg : Config) (f : Fmt) (x : VoiceRegs) :
    (endOfFrame cfg f x).cursor = x.cursor := by
  unfold endOfFrame
  split <;> rfl

@[simp] theorem endOfFrame_base (cfg : Config) (f : Fmt) (x : VoiceRegs) : (endOfFrame cfg f x).base = x.base := by
  unfold endOfFrame
  split <;> rfl

@[simp] theorem endOfFrame_fmt (cfg : Config) (f : Fmt) (x : VoiceRegs) : (endOfFrame cfg f x).fmt = x.fmt := by
  unfold endOfFrame
  split <;> rfl

/-! ### PRODUCE (R133) -/

theorem frame_pos {cfg : Config} (h : cfg.wf) : 0 < cfg.frame :=
  Nat.lt_of_lt_of_le (by decide) h.left

theorem wordsPerFrame_pos {cfg : Config} (h : cfg.wf) (f : Fmt) : 0 < wordsPerFrame cfg f :=
  Nat.pos_of_mul_pos_right (wordsPerFrame_mul_opw h f ▸ frame_pos h)

theorem nativesPerFrame_pos {cfg : Config} (h : cfg.wf) (f : Fmt) : 0 < nativesPerFrame cfg f :=
  Nat.pos_of_mul_pos_right (nativesPerFrame_mul_ratio h f ▸ frame_pos h)

theorem produceVoice_frame {cfg : Config} {m : List Host.Cell} {x : Voice} {f : Fmt} {frame : List Half}
    {r : VoiceRegs} (hp : x.regs.playing = true) (hf : formatOf x.regs.fmt = some f)
    (hloop : frameLoop cfg m f (wordsPerFrame cfg f) x.regs = .ok (frame, r)) :
    produceVoice cfg m x = .ok (((x.withRegs (endOfFrame cfg f r)).emit frame).respond (.frame frame)) := by
  simp [produceVoice, hp, hf, hloop]

theorem produceVoice_error {cfg : Config} {m : List Host.Cell} {x : Voice} {f : Fmt} {e : Fault}
    (hp : x.regs.playing = true) (hf : formatOf x.regs.fmt = some f)
    (hloop : frameLoop cfg m f (wordsPerFrame cfg f) x.regs = .error e) : produceVoice cfg m x = .error e := by
  simp [produceVoice, hp, hf, hloop]

/-- Settles O41: the frame is the loop's closed form, `FRAME div OPW` words at `OPW` outputs each being `FRAME`. -/
theorem produceDecodesScalesAndEmitsOneFrame : Obligations.ProduceDecodesScalesAndEmitsOneFrame := by
  intro s v x hwf hv
  refine ⟨rfl, exec_produce_idle hv, fun hp hf => exec_produce_ok hv (produceVoice_unrecognised s.cfg s.mem hp hf),
    fun f hp hf => ⟨fun hmissing => ?missing, ?frame⟩⟩
  case missing =>
    obtain ⟨k, hk, hno, hbelow⟩ := exists_first_missing (wordsPerFrame_pos hwf f) hmissing
    exact ⟨k, hk, exec_of_voiceAct_error (i := .produce v) hv
      (produceVoice_error hp hf (frameLoop_memFault s.cfg f hk hno hbelow)), hno, hbelow⟩
  case frame =>
    intro ws hlen hwords hws raw frame c r
    have hsamples : wordsPerFrame s.cfg f * opw f = s.cfg.frame := wordsPerFrame_mul_opw hwf f
    have hloop := frameLoop_eq s.cfg s.mem f ws x.regs (hlen.symm ▸ hwords) hws
    rw [hlen, hsamples] at hloop
    refine ⟨?_, exec_produce_ok hv (produceVoice_frame hp hf hloop)⟩
    calc frame.length = raw.1.length := List.length_mapIdx
      _ = s.cfg.frame := by rw [rawOutputs_length, hlen, hsamples]

end Sys2Proof.Machine

/-! SUPPORT. How a grain goes on and ends (42_voice_player.md R130, R135, R141, R143): a PRODUCE that emits, the frames of
a grain counted, the only instructions that start or stop a voice; then the time queries (R136, R137). -/

namespace Sys2Proof.Machine

/-! ### A PRODUCE that emits -/

/-- R133, R135: the voice after a frame, with what exhaustion left of its registers. -/
structure FrameEmitted (cfg : Config) (f : Fmt) (x y : Voice) (frame : List Half) : Prop where
  emitted : y.port.emitted = frame :: x.port.emitted
  responses : y.port.responses = .frame frame :: x.port.responses
  length : frame.length = wordsPerFrame cfg f * opw f
  cursor : y.regs.cursor = x.regs.cursor + wordsPerFrame cfg f
  base : y.regs.base = x.regs.base
  fmt : y.regs.fmt = x.regs.fmt
  exhausted : x.regs.segLen.toNat ≤ nativesPerFrame cfg f →
    y.regs.playing = false ∧ y.regs.busy = false ∧ y.regs.segLen = x.regs.segLen
  continues : nativesPerFrame cfg f < x.regs.segLen.toNat →
    y.regs.playing = x.regs.playing ∧ y.regs.busy = x.regs.busy ∧
      y.regs.segLen.toNat = x.regs.segLen.toNat - nativesPerFrame cfg f

theorem frameEmitted_of_frameLoop {cfg : Config} {m : List Host.Cell} {f : Fmt} {x : Voice} {frame : List Half}
    {r : VoiceRegs} (hloop : frameLoop cfg m f (wordsPerFrame cfg f) x.regs = .ok (frame, r)) :
    FrameEmitted cfg f x (((x.withRegs (endOfFrame cfg f r)).emit frame).respond (.frame frame)) frame := by
  obtain ⟨hcursor, hr⟩ := frameLoop_frame hloop
  have hsegLen : r.segLen = x.regs.segLen := by rw [hr]
  refine
    { emitted := rfl, responses := rfl, length := frameLoop_length hloop
      cursor := (endOfFrame_cursor cfg f r).trans hcursor
      base := (endOfFrame_base cfg f r).trans (by rw [hr])
      fmt := (endOfFrame_fmt cfg f r).trans (by rw [hr])
      exhausted := fun hle => ?exhausted, continues := fun hlt => ?continues }
  case exhausted => simp [endOfFrame_exhausted (hsegLen ▸ hle), hsegLen]
  case continues =>
    have hplaying : r.playing = x.regs.playing := by rw [hr]
    have hbusy : r.busy = x.regs.busy := by rw [hr]
    have hlt : nativesPerFrame cfg f < r.segLen.toNat := hsegLen ▸ hlt
    rw [← hsegLen, ← hplaying, ← hbusy, ← endOfFrame_segLen_toNat hlt]
    simp [endOfFrame_continues hlt]

/-- A PRODUCE that succeeds on a voice Playing a recognised format emits. -/
theorem produceVoice_emits {cfg : Config} {m : List Host.Cell} {f : Fmt} {x y : Voice} (hp : x.regs.playing = true)
    (hf : formatOf x.regs.fmt = some f) (h : produceVoice cfg m x = .ok y) :
    ∃ frame, FrameEmitted cfg f x y frame := by
  rcases produceVoice_ok h with ⟨hidle, -⟩ | ⟨-, hnone, -⟩ | ⟨f', frame, r, -, hf', hloop, rfl⟩
  · simp [hp] at hidle
  · simp [hf] at hnone
  · obtain rfl : f' = f := Option.some.inj (hf'.symm.trans hf)
    exact ⟨frame, frameEmitted_of_frameLoop hloop⟩

/-- R58: where the words of the frame exist, a PRODUCE of a voice Playing a recognised format answers. -/
theorem exec_produce_emits {s : State} {v : Nat} {f : Fmt} {x : Voice} (hv : s.voices[v]? = some x)
    (hp : x.regs.playing = true) (hf : formatOf x.regs.fmt = some f)
    (hwords : hasWords s.mem x.regs.base (x.regs.cursor + wordsPerFrame s.cfg f) = true) :
    ∃ y frame, exec (.produce v) s = .next (s.setVoice v y) ∧ FrameEmitted s.cfg f x y frame := by
  obtain ⟨frame, r, hloop⟩ := frameLoop_total s.cfg s.mem f (wordsPerFrame s.cfg f) x.regs hwords
  exact ⟨_, frame, exec_produce_ok hv (produceVoice_frame hp hf hloop), frameEmitted_of_frameLoop hloop⟩

/-! ### The flag queries (R138, R139) -/

theorem exec_isPlaying {s : State} {v : Nat} {x : Voice} (hv : s.voices[v]? = some x) :
    exec (.isPlaying v) s = .next (s.setVoice v (x.respond (.bit x.regs.playing))) :=
  exec_of_voiceAct (i := .isPlaying v) hv rfl

theorem exec_isBusy {s : State} {v : Nat} {x : Voice} (hv : s.voices[v]? = some x) :
    exec (.isBusy v) s = .next (s.setVoice v (x.respond (.bit x.regs.busy))) :=
  exec_of_voiceAct (i := .isBusy v) hv rfl

/-- Settles O50: the answer is the register, and the invariant has the flags agree. -/
theorem isBusyAnswersTheFlag : Obligations.IsBusyAnswersTheFlag := by
  intro s v x hx
  refine ⟨rfl, exec_isBusy hx, fun hinv => ?_⟩
  obtain ⟨-, -, -, hvoices⟩ := hinv
  exact (hvoices x (List.mem_of_getElem? hx)).left

/-! ### The end of a grain and the cursor (R135, R143) -/

/-- Settles O42: the two cases of exhaustion, and IS_PLAYING of the voice they leave. -/
theorem exhaustionEndsTheGrain : Obligations.ExhaustionEndsTheGrain := by
  intro s t v x y f hx hy hp hf hexec c
  obtain ⟨frame, hframe⟩ := produceVoice_emits hp hf (exec_produce_next_voice hexec hx hy)
  refine ⟨⟨frame, hframe.emitted, hframe.responses⟩, fun hge => ?exhausted, fun hlt => ?continues⟩
  case exhausted =>
    obtain ⟨hidle, hbusy, hsegLen⟩ := hframe.exhausted hge
    refine ⟨hidle, hbusy, hsegLen, _, _, exec_isPlaying hy, setVoice_getElem?_self hy _, ?_⟩
    rw [Voice.respond_responses, hidle]
  case continues =>
    obtain ⟨hplaying, hbusy, hsegLen⟩ := hframe.continues hlt
    exact ⟨hplaying.trans hp, hbusy, hsegLen, hsegLen ▸ Nat.sub_pos_of_lt hlt⟩

/-- Settles O43: the outcomes of PRODUCE, of which the frame alone emits and moves the cursor. -/
theorem cursorAdvancesByWholeFrames : Obligations.CursorAdvancesByWholeFrames := by
  refine ⟨fun s t v x y hx hy hexec => ?_, fun cfg hframe => by simp only [wordsPerFrame, hframe]; decide⟩
  rcases produceVoice_ok (exec_produce_next_voice hexec hx hy) with
    ⟨-, rfl⟩ | ⟨-, -, rfl⟩ | ⟨f, frame, r, -, hf, hloop, hy'⟩
  · exact ⟨fun hne => absurd rfl hne, fun _ => rfl⟩
  · exact ⟨fun hne => absurd rfl hne, fun _ => rfl⟩
  · have hemit := hy' ▸ frameEmitted_of_frameLoop hloop
    refine ⟨fun _ => ⟨f, hf, hemit.cursor⟩, fun heq => ?_⟩
    exact absurd (hemit.emitted.symm.trans heq) (List.cons_ne_self _ _)

/-! ### The frames of a grain (R141) -/

theorem framesOfGrain_of_le {cfg : Config} {f : Fmt} {len : Nat} (hlen : 1 ≤ len)
    (h : len ≤ nativesPerFrame cfg f) : framesOfGrain cfg f len = 1 := by
  rw [framesOfGrain, Nat.div_eq_of_lt_le] <;> omega

theorem framesOfGrain_of_gt {cfg : Config} {f : Fmt} {len : Nat} (hc : 0 < nativesPerFrame cfg f)
    (h : nativesPerFrame cfg f < len) :
    framesOfGrain cfg f len = framesOfGrain cfg f (len - nativesPerFrame cfg f) + 1 := by
  rw [framesOfGrain, framesOfGrain, ← Nat.add_div_right _ hc]
  congr 1
  omega

theorem framesOfGrain_pos {cfg : Config} {f : Fmt} {len : Nat} (hc : 0 < nativesPerFrame cfg f) (hlen : 1 ≤ len) :
    1 ≤ framesOfGrain cfg f len := by
  rw [framesOfGrain, Nat.one_le_div_iff hc]
  omega

theorem le_framesOfGrain_mul {cfg : Config} (f : Fmt) (len : Nat) (hc : 0 < nativesPerFrame cfg f) :
    len ≤ framesOfGrain cfg f len * nativesPerFrame cfg f := by
  have := Nat.div_add_mod' (len + nativesPerFrame cfg f - 1) (nativesPerFrame cfg f)
  have := Nat.mod_lt (len + nativesPerFrame cfg f - 1) hc
  rw [framesOfGrain]
  omega

/-- R58: voice `v` plays a grain of a recognised format, and the words of its frames to come exist, the overrun of the
last one with them. -/
structure GrainInMemory (s : State) (v : Nat) (f : Fmt) (x : Voice) : Prop where
  voice : s.voices[v]? = some x
  playing : x.regs.playing = true
  fmt : formatOf x.regs.fmt = some f
  segLen : 1 ≤ x.regs.segLen.toNat
  words : hasWords s.mem x.regs.base
    (x.regs.cursor + framesOfGrain s.cfg f x.regs.segLen.toNat * wordsPerFrame s.cfg f) = true

/-- A grain in memory has its next frame. -/
theorem GrainInMemory.produce {s : State} {v : Nat} {f : Fmt} {x : Voice} (h : GrainInMemory s v f x)
    (hwf : s.cfg.wf) :
    ∃ y frame, exec (.produce v) s = .next (s.setVoice v y) ∧ FrameEmitted s.cfg f x y frame := by
  have htotal := framesOfGrain_pos (nativesPerFrame_pos hwf f) h.segLen
  have hwords := hasWords_of_le h.words (Nat.add_le_add_left (Nat.le_mul_of_pos_left _ htotal) _)
  exact exec_produce_emits h.voice h.playing h.fmt hwords

/-- A frame that does not end the grain leaves the rest of it in memory. -/
theorem GrainInMemory.afterFrame {s : State} {v : Nat} {f : Fmt} {x y : Voice} {frame : List Half}
    (h : GrainInMemory s v f x) (hwf : s.cfg.wf) (hframe : FrameEmitted s.cfg f x y frame)
    (hlt : nativesPerFrame s.cfg f < x.regs.segLen.toNat) : GrainInMemory (s.setVoice v y) v f y := by
  obtain ⟨hplaying, -, hsegLen⟩ := hframe.continues hlt
  have htotal := framesOfGrain_of_gt (nativesPerFrame_pos hwf f) hlt
  refine
    { voice := setVoice_getElem?_self h.voice y, playing := hplaying.trans h.playing, fmt := hframe.fmt ▸ h.fmt
      segLen := hsegLen ▸ Nat.sub_pos_of_lt hlt, words := ?_ }
  have hwords := h.words
  rw [htotal, Nat.succ_mul, Nat.add_comm _ (wordsPerFrame s.cfg f), ← Nat.add_assoc] at hwords
  rwa [hframe.base, hframe.cursor, hsegLen]

/-- R141: what `k` PRODUCEs do to a voice with `total` frames of its grain to come. -/
def PlaysFrames (s : State) (v : Nat) (f : Fmt) (x : Voice) (total k : Nat) : Prop :=
  ∃ (t : State) (z : Voice), produceTimes v k s = .next t ∧ t.voices[v]? = some z ∧
    (∃ frames : List (List Half), frames.length = k ∧ z.port.emitted = frames ++ x.port.emitted ∧
      ∀ fr ∈ frames, fr.length = s.cfg.frame) ∧
    (k < total → z.regs.playing = true ∧
      z.regs.segLen.toNat = x.regs.segLen.toNat - k * nativesPerFrame s.cfg f) ∧
    (k = total → z.regs.playing = false ∧ z.regs.busy = false)

theorem produceTimes_succ {s t : State} {v : Nat} (h : exec (.produce v) s = .next t) (k : Nat) :
    produceTimes v (k + 1) s = produceTimes v k t := by
  rw [produceTimes, h]

theorem FrameEmitted.length_eq_frame {cfg : Config} {f : Fmt} {x y : Voice} {frame : List Half}
    (h : FrameEmitted cfg f x y frame) (hwf : cfg.wf) : frame.length = cfg.frame :=
  h.length.trans (wordsPerFrame_mul_opw hwf f)

/-- The frame that uses up the segment is the only one to come. -/
theorem playsFrames_last {s : State} {v : Nat} {f : Fmt} {x y : Voice} {frame : List Half} (hwf : s.cfg.wf)
    (hx : s.voices[v]? = some x) (hexec : exec (.produce v) s = .next (s.setVoice v y))
    (hframe : FrameEmitted s.cfg f x y frame) (hle : x.regs.segLen.toNat ≤ nativesPerFrame s.cfg f) :
    PlaysFrames s v f x 1 1 := by
  obtain ⟨hidle, hbusy, -⟩ := hframe.exhausted hle
  exact ⟨_, y, produceTimes_succ hexec 0, setVoice_getElem?_self hx y,
    ⟨[frame], rfl, hframe.emitted, by simp [hframe.length_eq_frame hwf]⟩, fun h => absurd h (Nat.lt_irrefl 1),
    fun _ => ⟨hidle, hbusy⟩⟩

/-- A frame that does not use up the segment comes before those of the rest of the grain. -/
theorem playsFrames_succ {s : State} {v : Nat} {f : Fmt} {x y : Voice} {frame : List Half} {total k : Nat}
    (hwf : s.cfg.wf) (hexec : exec (.produce v) s = .next (s.setVoice v y))
    (hframe : FrameEmitted s.cfg f x y frame) (hlt : nativesPerFrame s.cfg f < x.regs.segLen.toNat)
    (hrest : PlaysFrames (s.setVoice v y) v f y total k) : PlaysFrames s v f x (total + 1) (k + 1) := by
  obtain ⟨-, -, hsegLen⟩ := hframe.continues hlt
  obtain ⟨t, z, hrun, hz, ⟨frames, hcount, hemitted, hframes⟩, hbefore, hlast⟩ := hrest
  refine ⟨t, z, (produceTimes_succ hexec k).trans hrun, hz, ⟨frames ++ [frame], ?count, ?emitted, ?lengths⟩,
    fun hk => ?before, fun hk => hlast (Nat.succ.inj hk)⟩
  case count => rw [List.length_append, hcount, List.length_singleton]
  case emitted => rw [hemitted, hframe.emitted, List.append_assoc, List.singleton_append]
  case lengths =>
    intro fr hfr
    rcases List.mem_append.mp hfr with hfr | hfr
    · exact hframes fr hfr
    · exact List.mem_singleton.mp hfr ▸ hframe.length_eq_frame hwf
  case before =>
    obtain ⟨hplaying, hremaining⟩ := hbefore (Nat.lt_of_succ_lt_succ hk)
    rw [setVoice_cfg, hsegLen, Nat.sub_sub, Nat.add_comm, ← Nat.succ_mul] at hremaining
    exact ⟨hplaying, hremaining⟩

/-- R141, by induction on `k`: the first frame lowers `seg_len` by its native samples, and so the number of frames to
come by one. -/
theorem GrainInMemory.playsFrames {s : State} {v k : Nat} {f : Fmt} {x : Voice} (h : GrainInMemory s v f x)
    (hwf : s.cfg.wf) (hk : k ≤ framesOfGrain s.cfg f x.regs.segLen.toNat) :
    PlaysFrames s v f x (framesOfGrain s.cfg f x.regs.segLen.toNat) k := by
  have hc := nativesPerFrame_pos hwf f
  induction k generalizing s x with
  | zero =>
    have htotal := framesOfGrain_pos hc h.segLen
    exact ⟨s, x, rfl, h.voice, ⟨[], rfl, rfl, by simp⟩, fun _ => ⟨h.playing, by simp⟩,
      fun hzero => by omega⟩
  | succ k ih =>
    obtain ⟨y, frame, hexec, hframe⟩ := h.produce hwf
    rcases Nat.lt_or_ge (nativesPerFrame s.cfg f) x.regs.segLen.toNat with hlt | hle
    · obtain ⟨-, -, hsegLen⟩ := hframe.continues hlt
      have htotal := framesOfGrain_of_gt hc hlt
      rw [htotal] at hk ⊢
      rw [← hsegLen] at hk ⊢
      exact playsFrames_succ hwf hexec hframe hlt (ih (h.afterFrame hwf hframe hlt) hwf (Nat.le_of_succ_le_succ hk) hc)
    · rw [framesOfGrain_of_le h.segLen hle] at hk ⊢
      obtain rfl : k = 0 := Nat.le_zero.mp (Nat.le_of_succ_le_succ hk)
      exact playsFrames_last hwf h.voice hexec hframe hle

/-- R141: the frames of a grain hold its native samples. -/
theorem ratio_mul_le_frames {cfg : Config} (hwf : cfg.wf) (f : Fmt) (len : Nat) :
    ratio f * len ≤ cfg.frame * framesOfGrain cfg f len := by
  calc ratio f * len ≤ ratio f * (framesOfGrain cfg f len * nativesPerFrame cfg f) :=
        Nat.mul_le_mul_left _ (le_framesOfGrain_mul f len (nativesPerFrame_pos hwf f))
    _ = nativesPerFrame cfg f * ratio f * framesOfGrain cfg f len := by ring
    _ = cfg.frame * framesOfGrain cfg f len := by rw [nativesPerFrame_mul_ratio hwf f]

/-- A voice that an ASSIGN took from Idle to Playing a recognised format is at the start of a segment. -/
theorem assignVoice_started {cfg : Config} {m : List Host.Cell} {v : Nat} {b : WordAddr} {st ln : Word} {x y : Voice}
    {f : Fmt} (h : assignVoice cfg m v (some b) st ln x = .ok y) (hidle : x.regs.playing = false)
    (hp : y.regs.playing = true) (hf : formatOf y.regs.fmt = some f) :
    y.regs.base = b ∧ y.regs.segLen = y.regs.segTotal ∧ 1 ≤ y.regs.segTotal.toNat := by
  rcases assignVoice_outcome h with ⟨a, -, rfl⟩ | ⟨b', c, n, -, -, hc, rfl⟩ | ⟨b', f', n, hb, -, hlen, rfl⟩
  · exact absurd (hidle.symm.trans hp) Bool.false_ne_true
  · exact absurd (hc.symm.trans hf) (by simp)
  · exact ⟨(Option.some.inj hb).symm, rfl, hlen.trans_eq (segmentLen_toNat cfg f' n st ln).symm⟩

/-- Settles O44: a grain just assigned has all the frames of its segment to come. -/
theorem grainTakesItsNumberOfFrames : Obligations.GrainTakesItsNumberOfFrames := by
  intro s s' v b st ln x y f hwf hx hidle hexec hy hp hf len c total hwords
  obtain ⟨hcfg, hmem, -⟩ := exec_keeps_cfg_mem_voiceCount hexec
  obtain ⟨hbase, hsegLen, hlen⟩ := assignVoice_started (exec_assign_next_voice hexec hx hy) hidle hp hf
  have hgrain : GrainInMemory s' v f y :=
    { voice := hy, playing := hp, fmt := hf, segLen := hsegLen ▸ hlen
      words := by rw [hmem, hcfg, hbase, hsegLen]; exact hwords }
  have hplays := fun k => hgrain.playsFrames (hcfg ▸ hwf) (k := k)
  simp only [PlaysFrames, hcfg, hsegLen] at hplays
  exact ⟨framesOfGrain_pos (nativesPerFrame_pos hwf f) hlen, ratio_mul_le_frames hwf f len, hplays⟩

/-! ### Starting and stopping (R130) -/

/-- R130: the only transitions of a voice. An instruction for another voice leaves the flag alone, and so does every
instruction for this one but an accepted ASSIGN and the PRODUCE that ends the grain. -/
theorem exec_playing {i : Instr} {s t : State} {v : Nat} {x y : Voice} (h : exec i s = .next t)
    (hx : s.voices[v]? = some x) (hy : t.voices[v]? = some y) :
    y.regs.playing = x.regs.playing ∨
    (x.regs.playing = false ∧ y.regs.playing = true ∧ (∃ b st ln, i = .assign v (some b) st ln) ∧
      y.port.responses = .status .ok :: x.port.responses) ∨
    (x.regs.playing = true ∧ y.regs.playing = false ∧ i = .produce v ∧
      ((∃ f, formatOf x.regs.fmt = some f ∧ x.regs.segLen.toNat ≤ nativesPerFrame s.cfg f) ∨
        (formatOf x.regs.fmt = none ∧ y.port.faults = .decodeFault x.regs.fmt :: x.port.faults))) := by
  rcases exec_next_voice h hx hy with ⟨-, rfl⟩ | ⟨rfl, hact⟩
  · exact .inl rfl
  cases i with
  | decUlaw44 | decPcm44 | decUlaw22 | decPcm22 | decUlaw11 | decPcm11 | decUnrecognised | queryPos | queryLen
  | isPlaying | isBusy =>
    obtain rfl := Except.ok.inj hact
    exact .inl rfl
  | assign v sample st ln =>
    rcases assignVoice_outcome hact with
      ⟨a, -, rfl⟩ | ⟨b, c, n, rfl, hidle, -, rfl⟩ | ⟨b, f, n, rfl, hidle, -, rfl⟩
    · exact .inl rfl
    · exact .inr (.inl ⟨hidle, rfl, ⟨b, st, ln, rfl⟩, rfl⟩)
    · exact .inr (.inl ⟨hidle, rfl, ⟨b, st, ln, rfl⟩, rfl⟩)
  | produce v =>
    rcases produceVoice_ok hact with ⟨-, rfl⟩ | ⟨hp, hf, rfl⟩ | ⟨f, frame, r, hp, hf, hloop, hy'⟩
    · exact .inl rfl
    · exact .inr (.inr ⟨hp, rfl, rfl, .inr ⟨hf, rfl⟩⟩)
    · have hframe := hy' ▸ frameEmitted_of_frameLoop hloop
      rcases Nat.lt_or_ge (nativesPerFrame s.cfg f) x.regs.segLen.toNat with hlt | hle
      · obtain ⟨hplaying, -, -⟩ := hframe.continues hlt
        exact .inl hplaying
      · obtain ⟨hidle, -, -⟩ := hframe.exhausted hle
        exact .inr (.inr ⟨hp, hidle, rfl, .inl ⟨f, hf, hle⟩⟩)

/-- Settles O53: the three transitions, each from one value of the flag to the other. -/
theorem onlyTheseEventsStartOrStopAVoice : Obligations.OnlyTheseEventsStartOrStopAVoice := by
  intro i s t v x y hexec hx hy
  rcases exec_playing hexec hx hy with hsame | ⟨hidle, hp, hassign, hresponse⟩ | ⟨hp, hidle, hproduce, hcause⟩
  · rw [hsame]
    exact ⟨fun h h' => absurd (h.symm.trans h') Bool.false_ne_true,
      fun h h' => absurd (h'.symm.trans h) Bool.false_ne_true⟩
  · exact ⟨fun _ _ => ⟨hassign, hresponse⟩, fun h => absurd (hidle.symm.trans h) Bool.false_ne_true⟩
  · exact ⟨fun h => absurd (h.symm.trans hp) Bool.false_ne_true, fun _ _ => ⟨hproduce, hcause⟩⟩

/-- Settles O49: the flag differs after an instruction only where it started or stopped the voice. -/
theorem isPlayingAnswersTheFlag : Obligations.IsPlayingAnswersTheFlag := by
  intro s v x hx
  refine ⟨rfl, exec_isPlaying hx, fun i t y hexec hy hne => ?_⟩
  rcases exec_playing hexec hx hy with hsame | ⟨-, hp, hassign, hresponse⟩ | ⟨-, hidle, hproduce, hcause⟩
  · exact absurd hsame hne
  · exact .inl ⟨hp, hassign, hresponse⟩
  · exact .inr ⟨hidle, hproduce, hcause.imp_right And.left⟩

/-! ### The time queries (R136, R137) -/

theorem exec_queryPos {s : State} {v : Nat} {x : Voice} (hv : s.voices[v]? = some x) :
    exec (.queryPos v) s = .next (s.setVoice v (x.respond (.millis (positionMs s.cfg x.regs)))) :=
  exec_of_voiceAct (i := .queryPos v) hv rfl

theorem exec_queryLen {s : State} {v : Nat} {x : Voice} (hv : s.voices[v]? = some x) :
    exec (.queryLen v) s = .next (s.setVoice v (x.respond (.millis (lengthMs s.cfg x.regs)))) :=
  exec_of_voiceAct (i := .queryLen v) hv rfl

theorem positionMs_playing (cfg : Config) {x : VoiceRegs} {f : Fmt} (hp : x.playing = true)
    (hf : formatOf x.fmt = some f) :
    positionMs cfg x = nativeToMs cfg f (((x.cursor : Int) - (x.segStartW.toNat : Int)) * (spw f : Int)) := by
  simp only [positionMs, hp, hf]

theorem lengthMs_playing (cfg : Config) {x : VoiceRegs} {f : Fmt} (hp : x.playing = true)
    (hf : formatOf x.fmt = some f) : lengthMs cfg x = nativeToMs cfg f (x.segTotal.toNat : Int) := by
  simp only [lengthMs, hp, hf]

/-- R11: a 24-bit count in milliseconds fits the response. -/
theorem nativeToMs_toNat {cfg : Config} (hk : cfg.kS2M = defaultS2M) (f : Fmt) {n : Nat} (hn : n < 2 ^ 24) :
    (nativeToMs cfg f n).toNat = n * constOf defaultS2M (rateOf f) / 2 ^ 32 := by
  have hconst : constOf defaultS2M (rateOf f) < 2 ^ 29 := by cases f <;> decide
  have hprod : n * constOf defaultS2M (rateOf f) < 2 ^ 24 * 2 ^ 29 := Nat.mul_lt_mul'' hn hconst
  have hcast : asr ((n : Int) * (constOf defaultS2M (rateOf f) : Int)) 32 =
      (n * constOf defaultS2M (rateOf f) / 2 ^ 32 : Nat) := by simp [asr]
  rw [nativeToMs, hk, hcast, BitVec.ofInt_natCast, BitVec.toNat_ofNat, Nat.mod_eq_of_lt]
  omega

/-- R136: under the invariant the words read are those of whole frames, within the segment. -/
theorem exists_natives_read {cfg : Config} {x : VoiceRegs} {f : Fmt} (hwf : cfg.wf) (h : x.GrainInv cfg)
    (hp : x.playing = true) (hf : formatOf x.fmt = some f) :
    ∃ n : Nat, ((x.cursor : Int) - (x.segStartW.toNat : Int)) * (spw f : Int) = n ∧ n < 2 ^ 24 := by
  obtain ⟨k, hcursor, hlen, -⟩ := h f hp hf
  refine ⟨k * nativesPerFrame cfg f, ?_, by omega⟩
  rw [hcursor, ← wordsPerFrame_mul_spw hwf f]
  push_cast
  ring

/-- Straight after an ASSIGN that responded OK the position is 0, whatever the code. -/
theorem positionMs_of_assignVoice (cfg : Config) {m : List Host.Cell} {v : Nat} {sample : Option WordAddr}
    {st ln : Word} {x y : Voice} (h : assignVoice cfg m v sample st ln x = .ok y)
    (hok : y.port.responses = .status .ok :: x.port.responses) : positionMs cfg y.regs = 0#32 := by
  rcases assignVoice_outcome h with ⟨a, ha, rfl⟩ | ⟨b, code, n, -, -, hcode, rfl⟩ | ⟨b, f, n, -, -, -, rfl⟩
  · exact absurd (by simpa using hok) ha
  · exact positionMs_unrecognised cfg hcode
  · rw [Voice.respond_regs, Voice.withRegs_regs, positionMs_playing cfg rfl (formatOf_formatCode f)]
    simp [nativeToMs, asr]

/-- Settles O46: the distance is that of whole frames within a 24-bit segment, and none straight after ASSIGN. -/
theorem queryPosAnswersElapsedTime : Obligations.QueryPosAnswersElapsedTime := by
  intro s v x hx
  refine ⟨rfl, fun hzero => ?zero, fun f hp hf => ⟨_, exec_queryPos hx, fun hinv hk => ?exact⟩,
    fun b st ln t y hexec hy hok => ?assigned⟩
  case zero =>
    rw [exec_queryPos hx, hzero.elim (positionMs_idle s.cfg) (positionMs_unrecognised s.cfg)]
  case exact =>
    obtain ⟨hwf, -, -, hvoices⟩ := hinv
    obtain ⟨-, hgrain⟩ := hvoices x (List.mem_of_getElem? hx)
    obtain ⟨n, hn, hlt⟩ := exists_natives_read hwf hgrain hp hf
    rw [positionMs_playing s.cfg hp hf, hn, nativeToMs_toNat hk f hlt]
    rfl
  case assigned =>
    obtain ⟨hcfg, -, -⟩ := exec_keeps_cfg_mem_voiceCount hexec
    rw [exec_queryPos hy, hcfg, positionMs_of_assignVoice s.cfg (exec_assign_next_voice hexec hx hy) hok]

/-- Settles O47: `seg_total` is a 24-bit count. -/
theorem queryLenAnswersTotalTime : Obligations.QueryLenAnswersTotalTime := by
  intro s v x hx
  refine ⟨rfl, fun hzero => ?zero, fun f hp hf => ⟨_, exec_queryLen hx, fun hk => ?exact⟩⟩
  case zero =>
    rw [exec_queryLen hx, hzero.elim (lengthMs_idle s.cfg) (lengthMs_unrecognised s.cfg)]
  case exact =>
    rw [lengthMs_playing s.cfg hp hf, nativeToMs_toNat hk f x.regs.segTotal.isLt]

end Sys2Proof.Machine

/-! SUPPORT. The faults and rejections of 60_exceptions.md: the status an ASSIGN answers with its condition (R162), and
what an instruction leaves of a Playing voice's format code and of a voice's fault log (R161). -/

namespace Sys2Proof.Machine

/-! ### The rejections of ASSIGN (R162) -/

/-- The status an ASSIGN answers, with the condition it answers it under: the three rejections in the order of their
tests, then OK. -/
theorem assignVoice_status {cfg : Config} {m : List Host.Cell} {v : Nat} {sample : Option WordAddr} {st ln : Word}
    {x y : Voice} {a : Status} (h : assignVoice cfg m v sample st ln x = .ok y)
    (ha : y.port.responses = .status a :: x.port.responses) :
    (a = .rejNull ∧ sample = none ∧ y = x.respond (.status .rejNull)) ∨
    (a = .rejBusy ∧ (∃ b, sample = some b) ∧ x.regs.playing = true ∧ y = x.respond (.status .rejBusy)) ∨
    (∃ b hdr, sample = some b ∧ x.regs.playing = false ∧ wordAt m b = some hdr ∧
      ((a = .rejLen ∧ (∃ f, formatOf (headerCode hdr) = some f ∧ segmentLen cfg f (headerCount hdr) st ln < 1) ∧
          y = x.respond (.status .rejLen)) ∨
        (a = .ok ∧ ∀ f, formatOf (headerCode hdr) = some f → 1 ≤ segmentLen cfg f (headerCount hdr) st ln))) := by
  rcases assignVoice_ok h with ⟨hnull, rfl⟩ | ⟨b, hb, hp, rfl⟩ | ⟨b, hdr, hb, hidle, hread, rfl⟩
  · exact .inl ⟨by simpa using ha.symm, hnull, rfl⟩
  · exact .inr (.inl ⟨by simpa using ha.symm, ⟨b, hb⟩, hp, rfl⟩)
  · obtain ⟨-, hword⟩ := (memRead_ok_iff ..).mp hread
    refine .inr (.inr ⟨b, hdr, hb, hidle, hword, ?_⟩)
    rcases assignHeader_cases cfg v b st ln hdr x with ⟨hf, hy⟩ | ⟨f, hf, hlen, hy⟩ | ⟨f, hf, hlen, hy⟩ <;>
      rw [hy] at ha ⊢
    · exact .inr ⟨by simpa [startUnrecognised] using ha.symm, by simp [hf]⟩
    · exact .inl ⟨by simpa using ha.symm, ⟨f, hf, hlen⟩, rfl⟩
    · exact .inr ⟨by simpa using ha.symm, by simpa [hf] using hlen⟩

/-- Settles O40: each status comes with its own condition, which excludes the other two; the action answers only. -/
theorem rejectionsChangeNoRegister : Obligations.RejectionsChangeNoRegister := by
  refine ⟨⟨rfl, rfl, rfl⟩, fun s t v sample st ln x y a hexec hx hy ha => ?_⟩
  have hact := exec_assign_next_voice hexec hx hy
  obtain rfl : s.setVoice v y = t := Host.Outcome.next.inj ((exec_assign_ok hx hact).symm.trans hexec)
  rcases assignVoice_status hact ha with ⟨rfl, rfl, rfl⟩ | ⟨rfl, ⟨b, rfl⟩, hp, rfl⟩ |
    ⟨b, hdr, rfl, hidle, hword, ⟨rfl, ⟨f, hf, hlen⟩, rfl⟩ | ⟨rfl, hlen⟩⟩
  · simp [Voice.respond]
  · simp [hp, Voice.respond]
  · exact ⟨by simp, by simp [hidle], by simpa [hidle, hword, hf] using hlen, fun _ => rfl⟩
  · simpa [hidle, hword, Nat.one_le_iff_ne_zero] using hlen

/-! ### The decode fault (R161) -/

/-- An action keeps the fault log, and the format code of a Playing voice, or it is PRODUCE's decode fault. -/
theorem voiceAct_decodeFault_or_keeps {cfg : Config} {m : List Host.Cell} {i : Instr} {x y : Voice}
    (h : voiceAct cfg m i x = .ok y) :
    (y.port.faults = x.port.faults ∧ (x.regs.playing = true → y.regs.fmt = x.regs.fmt)) ∨
    (i = .produce i.voice ∧ x.regs.playing = true ∧ formatOf x.regs.fmt = none ∧
      y = takeDecodeFault x.regs.fmt x) := by
  cases i with
  | decUlaw44 | decPcm44 | decUlaw22 | decPcm22 | decUlaw11 | decPcm11 | decUnrecognised | queryPos | queryLen
  | isPlaying | isBusy =>
    obtain rfl := Except.ok.inj h
    exact .inl ⟨rfl, fun _ => rfl⟩
  | assign v sample st ln =>
    rcases assignVoice_outcome h with ⟨a, -, rfl⟩ | ⟨b, c, n, -, hidle, -, rfl⟩ | ⟨b, f, n, -, hidle, -, rfl⟩
    · exact .inl ⟨rfl, fun _ => rfl⟩
    · exact .inl ⟨rfl, fun hp => absurd (hidle.symm.trans hp) Bool.false_ne_true⟩
    · exact .inl ⟨rfl, fun hp => absurd (hidle.symm.trans hp) Bool.false_ne_true⟩
  | produce v =>
    rcases produceVoice_ok h with ⟨-, rfl⟩ | ⟨hp, hf, rfl⟩ | ⟨f, frame, r, -, -, hloop, rfl⟩
    · exact .inl ⟨rfl, fun _ => rfl⟩
    · exact .inr ⟨rfl, hp, hf, rfl⟩
    · exact .inl ⟨rfl, fun _ => (frameEmitted_of_frameLoop hloop).fmt⟩

/-- Settles O24: PRODUCE takes the fault before it reads any memory, and no other action of a voice touches the log. -/
theorem decodeFaultIsRaisedByProduceOnly : Obligations.DecodeFaultIsRaisedByProduceOnly := by
  refine ⟨fun _ => rfl, ?faulted, fun i s t v x y hexec hx hy => ?only⟩
  case faulted =>
    intro s v x hx hp hf y
    refine ⟨fun m => exec_produce_ok (s := { s with mem := m }) hx (produceVoice_unrecognised s.cfg m hp hf), ?_, ?_⟩
    · rw [exec_isPlaying (setVoice_getElem?_self hx y), setVoice_setVoice]
    · rw [exec_isBusy (setVoice_getElem?_self hx y), setVoice_setVoice]
  case only =>
    rcases exec_next_voice hexec hx hy with ⟨-, rfl⟩ | ⟨rfl, hact⟩
    · exact ⟨fun _ => rfl, fun hne => absurd rfl hne⟩
    · rcases voiceAct_decodeFault_or_keeps hact with ⟨hfaults, hfmt⟩ | ⟨hi, hp, hf, rfl⟩
      · exact ⟨hfmt, fun hne => absurd hfaults hne⟩
      · exact ⟨fun _ => rfl, fun _ => ⟨hi, hp, hf, rfl⟩⟩

end Sys2Proof.Machine

/-! SUPPORT. Decoder and encoder as inverses (30_encoding.md R70, R71, R74, R75, R80): the row of a recognised format, the
two forms a request decodes in, and the request each instruction encodes to. -/

namespace Sys2Proof

open Machine

/-! ### The row of a format (R71, R74) -/

/-- The decode operation's instruction at a format. -/
def Instr.ofFormat : Fmt → Count → DecodeOperands → Instr
  | .ulaw44 => .decUlaw44
  | .pcm44 => .decPcm44
  | .ulaw22 => .decUlaw22
  | .pcm22 => .decPcm22
  | .ulaw11 => .decUlaw11
  | .pcm11 => .decPcm11

theorem decodeHeader_recognised {w : Word} {f : Fmt} (h : formatOf (headerCode w) = some f) (d : DecodeOperands) :
    decodeHeader w d = .ofFormat f (headerCount w) d := by
  rw [decodeHeader, h]
  cases f <;> rfl

theorem decodeHeader_unrecognised {w : Word} (h : formatOf (headerCode w) = none) (d : DecodeOperands) :
    decodeHeader w d = .decUnrecognised (headerCode w) (headerCount w) d := by
  rw [decodeHeader, h]

/-- A header word built from a format's code decodes to the row of that format. -/
theorem decodeHeader_headerWord (f : Fmt) (n : Count) (d : DecodeOperands) :
    decodeHeader (headerWord (formatCode f) n) d = .ofFormat f n d := by
  have hf : formatOf (headerCode (headerWord (formatCode f) n)) = some f :=
    (headerCode_headerWord _ n).symm ▸ formatOf_formatCode f
  rw [decodeHeader_recognised hf, headerCount_headerWord]

theorem decodeHeader_headerWord_unrecognised {c : Byte} (h : formatOf c = none) (n : Count) (d : DecodeOperands) :
    decodeHeader (headerWord c n) d = .decUnrecognised c n d := by
  have hc : headerCode (headerWord c n) = c := headerCode_headerWord c n
  rw [decodeHeader_unrecognised (hc.symm ▸ h), hc, headerCount_headerWord]

theorem ofFormat_voice (f : Fmt) (n : Count) (d : DecodeOperands) : (Instr.ofFormat f n d).voice = d.voice := by
  cases f <;> rfl

theorem ofFormat_codeFits (f : Fmt) (n : Count) (d : DecodeOperands) : (Instr.ofFormat f n d).codeFits = true := by
  cases f <;> rfl

theorem encode_ofFormat (f : Fmt) (n : Count) (d : DecodeOperands) :
    encode (.ofFormat f n d) = headerRequest (formatCode f) n d := by
  cases f <;> rfl

/-! ### Decoding what was encoded -/

/-- R52, R70: the four bytes give the header word back, and the operands stand beside it. -/
theorem decode_headerRequest (c : Byte) (n : Count) (d : DecodeOperands) :
    decode (headerRequest c n d) = .ok (decodeHeader (headerWord c n) d) := by
  simp only [decode, headerRequest, bytesOfWord, wordOfBytes_extract]

theorem decode_commandRequest (op : BitVec 3) (v : Nat) (sample : Option WordAddr) (st ln : Word) :
    decode (commandRequest op v sample st ln) = decodeCommand op (commandRequest op v sample st ln) :=
  decode_command rfl rfl

theorem decode_encode_ofFormat (f : Fmt) (n : Count) (d : DecodeOperands) :
    decode (encode (.ofFormat f n d)) = .ok (.ofFormat f n d) := by
  rw [encode_ofFormat, decode_headerRequest, decodeHeader_headerWord]

/-- Settles O10: a header row by its word, which gives code and count back; a command by its `op`. -/
theorem decodeUndoesEncode : Obligations.DecodeUndoesEncode := by
  intro i hfits
  cases i with
  | decUlaw44 n d => exact decode_encode_ofFormat .ulaw44 n d
  | decPcm44 n d => exact decode_encode_ofFormat .pcm44 n d
  | decUlaw22 n d => exact decode_encode_ofFormat .ulaw22 n d
  | decPcm22 n d => exact decode_encode_ofFormat .pcm22 n d
  | decUlaw11 n d => exact decode_encode_ofFormat .ulaw11 n d
  | decPcm11 n d => exact decode_encode_ofFormat .pcm11 n d
  | decUnrecognised c n d =>
    have hc : formatOf c = none := Option.isNone_iff_eq_none.mp hfits
    rw [encode, decode_headerRequest, decodeHeader_headerWord_unrecognised hc]
  | assign | produce | queryPos | queryLen | isPlaying | isBusy => exact decode_commandRequest ..

/-! ### Encoding what was decoded -/

theorem toNat_append_byte {n : Nat} (x : BitVec n) (b : Byte) : (x ++ b).toNat = x.toNat * 2 ^ 8 + b.toNat := by
  rw [BitVec.toNat_append, ← Nat.shiftLeft_add_eq_or_of_lt b.isLt, Nat.shiftLeft_eq]

theorem wordOfBytes_toNat (b0 b1 b2 b3 : Byte) :
    (wordOfBytes b0 b1 b2 b3).toNat = ((b3.toNat * 2 ^ 8 + b2.toNat) * 2 ^ 8 + b1.toNat) * 2 ^ 8 + b0.toNat := by
  rw [← toNat_append_byte, ← toNat_append_byte, ← toNat_append_byte]
  rfl

theorem bytesOfWord_wordOfBytes (b0 b1 b2 b3 : Byte) : bytesOfWord (wordOfBytes b0 b1 b2 b3) = [b0, b1, b2, b3] := by
  simp only [bytesOfWord, List.cons.injEq, and_true]
  refine ⟨?_, ?_, ?_, ?_⟩ <;> apply BitVec.eq_of_toNat_eq <;>
    rw [BitVec.extractLsb'_toNat, wordOfBytes_toNat, Nat.shiftRight_eq_div_pow] <;> omega

/-- R80: the two forms in which a request decodes: a header word beside its operands, or the `op` of a command. -/
theorem decode_ok {r : Request} {i : Instr} (h : decode r = .ok i) :
    (∃ w, r.layer = .header ∧ r.code = bytesOfWord w ∧ i = decodeHeader w ⟨r.voice, r.word, r.prior⟩) ∨
    (∃ op : BitVec 3, r.layer = .command ∧ r.code = [op.setWidth 8] ∧ decodeCommand op r = .ok i) := by
  unfold decode at h
  split at h
  case h_1 b0 b1 b2 b3 hlayer hcode =>
    exact .inl ⟨_, hlayer, hcode.trans (bytesOfWord_wordOfBytes b0 b1 b2 b3).symm, (Except.ok.inj h).symm⟩
  case h_2 => cases h
  case h_3 b hlayer hcode =>
    split at h
    · rename_i hupper
      have hop : (b.extractLsb' 0 3).setWidth 8 = b := by clear h hcode; decide +revert
      exact .inr ⟨_, hlayer, hcode.trans (by rw [hop]), h⟩
    · cases h
  case h_4 => cases h

/-- R71, R74: a header word decodes to an instruction that encodes to it. -/
theorem encode_decodeHeader (w : Word) (d : DecodeOperands) :
    encode (decodeHeader w d) = headerRequest (headerCode w) (headerCount w) d ∧
    (decodeHeader w d).voice = d.voice ∧ (decodeHeader w d).codeFits = true := by
  cases hf : formatOf (headerCode w) with
  | none =>
    rw [decodeHeader_unrecognised hf]
    exact ⟨rfl, rfl, Option.isNone_iff_eq_none.mpr hf⟩
  | some f =>
    rw [decodeHeader_recognised hf, encode_ofFormat, formatCode_of_formatOf hf]
    exact ⟨rfl, ofFormat_voice f _ d, ofFormat_codeFits f _ d⟩

/-- R75: an `op` that names a command decodes to an instruction that encodes to it. -/
theorem encode_decodeCommand {op : BitVec 3} {r : Request} {i : Instr} (h : decodeCommand op r = .ok i) :
    (∃ sample st ln, encode i = commandRequest op r.voice sample st ln) ∧ i.voice = r.voice ∧ i.codeFits = true := by
  unfold decodeCommand at h
  split_ifs at h <;> cases h <;> subst op <;> exact ⟨⟨_, _, _, rfl⟩, rfl, rfl⟩

/-- Settles O11: by the two forms of a request; ASSIGN's operand lines are those of the request. -/
theorem encodeUndoesDecode : Obligations.EncodeUndoesDecode := by
  intro r i h
  rcases decode_ok h with ⟨w, hlayer, hcode, rfl⟩ | ⟨op, hlayer, hcode, hcommand⟩
  · obtain ⟨hencode, hvoice, hfits⟩ := encode_decodeHeader w ⟨r.voice, r.word, r.prior⟩
    rw [hencode, hlayer, hcode, headerRequest, headerWord_headerCode_headerCount]
    exact ⟨rfl, rfl, rfl, hvoice, hfits⟩
  · obtain ⟨⟨sample, st, ln, hencode⟩, hvoice, hfits⟩ := encode_decodeCommand hcommand
    rw [hencode, hlayer, hcode]
    exact ⟨rfl, rfl, rfl, hvoice, hfits⟩

/-- Settles O12: the table's words, decoded. -/
theorem writtenOutWordsDecode : Obligations.WrittenOutWordsDecode := by
  unfold Obligations.WrittenOutWordsDecode
  decide

/-- R71, R74: a code is recognised exactly if it is one of the six. -/
theorem formatOf_eq_none_iff (c : Byte) :
    formatOf c = none ↔ c ∉ [0x01#8, 0x81#8, 0x02#8, 0x82#8, 0x03#8, 0x83#8] := by
  unfold formatOf
  split_ifs <;> simp [*]

/-- Settles O15: the six codes, and the others counted over all 256 values of a byte. -/
theorem exactlySixCodesAreRecognised : Obligations.ExactlySixCodesAreRecognised :=
  ⟨formatOf_eq_none_iff, formatOf_formatCode, by decide +kernel⟩
end Sys2Proof

/-! SUPPORT. The invariant of the machine (10_state.md R36) kept by every step: what PRODUCE and ASSIGN may write of a
voice's registers (R37), the grain a frame leaves and the grain ASSIGN starts, then routing, the reset event and a step. -/

namespace Sys2Proof.Machine

/-! ### What PRODUCE writes (R37, R133) -/

/-- R134: the loop advances the phase once per output sample. -/
theorem frameLoop_fadePos {cfg : Config} {m : List Host.Cell} {f : Fmt} {n : Nat} {x x' : VoiceRegs}
    {frame : List Half} (h : frameLoop cfg m f n x = .ok (frame, x')) :
    x'.fadePos = phaseAfter x.fadePos x.fadeRate (n * opw f) := by
  induction n generalizing x frame with
  | zero =>
    simp only [frameLoop, Except.ok.injEq, Prod.mk.injEq] at h
    obtain ⟨-, rfl⟩ := h
    rw [Nat.zero_mul, phaseAfter_zero]
  | succ n ih =>
    obtain ⟨w, rest, -, hrest, -⟩ := frameLoop_succ_ok h
    rw [ih hrest, afterWord_fadePos, afterWord_fadeRate, scaleAll_snd, phaseAfter_add, wordRaw, decodeOp_eq,
      decodeWord_length, Nat.succ_mul, Nat.add_comm]

/-- R135: exhaustion writes the flags or the remaining length. -/
theorem endOfFrame_writes (cfg : Config) (f : Fmt) (x : VoiceRegs) :
    endOfFrame cfg f x =
      { x with
        playing := (endOfFrame cfg f x).playing, busy := (endOfFrame cfg f x).busy
        segLen := (endOfFrame cfg f x).segLen } := by
  unfold endOfFrame
  split <;> rfl

/-- The registers after a frame. -/
theorem endOfFrame_of_frameLoop {cfg : Config} {m : List Host.Cell} {f : Fmt} {n : Nat} {x r : VoiceRegs}
    {frame : List Half} (h : frameLoop cfg m f n x = .ok (frame, r)) :
    endOfFrame cfg f r =
      { x with
        playing := (endOfFrame cfg f r).playing, busy := (endOfFrame cfg f r).busy, cursor := x.cursor + n
        segLen := (endOfFrame cfg f r).segLen, prior := r.prior
        fadePos := phaseAfter x.fadePos x.fadeRate (n * opw f) } := by
  obtain ⟨hcursor, hr⟩ := frameLoop_frame h
  rw [endOfFrame_writes, ← hcursor, ← frameLoop_fadePos h]
  generalize endOfFrame cfg f r = e
  rw [hr]

/-- R37: PRODUCE writes no register but these six. -/
theorem produceVoice_writes {cfg : Config} {m : List Host.Cell} {x y : Voice} (h : produceVoice cfg m x = .ok y) :
    y.regs =
      { x.regs with
        playing := y.regs.playing, busy := y.regs.busy, cursor := y.regs.cursor, segLen := y.regs.segLen
        prior := y.regs.prior, fadePos := y.regs.fadePos } := by
  rcases produceVoice_ok h with ⟨-, rfl⟩ | ⟨-, -, rfl⟩ | ⟨f, frame, r, -, -, hloop, rfl⟩
  · rfl
  · rfl
  · rw [Voice.respond_regs, Voice.emit_regs, Voice.withRegs_regs, endOfFrame_of_frameLoop hloop]

theorem le_phaseAfter (p r : Word) (n : Nat) : p.toNat ≤ (phaseAfter p r n).toNat := by
  rw [phaseAfter_toNat]
  omega

/-- R27, R31: PRODUCE moves the cursor and the phase forwards only. -/
theorem produceVoice_advances {cfg : Config} {m : List Host.Cell} {x y : Voice} (h : produceVoice cfg m x = .ok y) :
    x.regs.cursor ≤ y.regs.cursor ∧ x.regs.fadePos.toNat ≤ y.regs.fadePos.toNat := by
  rcases produceVoice_ok h with ⟨-, rfl⟩ | ⟨-, -, rfl⟩ | ⟨f, frame, r, -, -, hloop, rfl⟩
  · exact ⟨le_rfl, le_rfl⟩
  · exact ⟨le_rfl, le_rfl⟩
  · rw [Voice.respond_regs, Voice.emit_regs, Voice.withRegs_regs, endOfFrame_of_frameLoop hloop]
    exact ⟨Nat.le_add_right _ _, le_phaseAfter _ _ _⟩

/-! ### The grain ASSIGN starts (R131) -/

theorem segmentStart_le (cfg : Config) (f : Fmt) (n : Count) (st : Word) : segmentStart cfg f n st ≤ n.toNat :=
  Nat.min_le_right _ _

/-- R32: a fade rate fits its register. -/
theorem fadeRate_toNat (len : Nat) : (BitVec.ofNat 32 (0xFFFFFFFF / len)).toNat = 0xFFFFFFFF / len := by
  have hle : 0xFFFFFFFF / len ≤ 0xFFFFFFFF := Nat.div_le_self _ _
  rw [BitVec.toNat_ofNat, Nat.mod_eq_of_lt]
  omega

/-- R32: the rate of a segment whose length fits 24 bits is at least 0x100. -/
theorem le_fadeRate {len : Nat} (hlen : 1 ≤ len) (hlt : len < 2 ^ 24) : 0x100 ≤ 0xFFFFFFFF / len := by
  rw [Nat.le_div_iff_mul_le hlen]
  omega

/-- Settles O38: the segment lies inside the file, whose length is a 24-bit count. -/
theorem assignedValuesFitTheirRegisters : Obligations.AssignedValuesFitTheirRegisters := by
  intro cfg f flen st ln hlen start len
  have hinside : start + len ≤ flen.toNat := segment_inside cfg f flen st ln
  have hflen : flen.toNat < 2 ^ 24 := flen.isLt
  exact ⟨hinside, segmentStart_le cfg f flen st, segmentLen_toNat cfg f flen st ln, segStartW_toNat cfg f flen st,
    fadeRate_toNat len, le_fadeRate hlen (by omega)⟩

theorem grainInv_of_idle (cfg : Config) {x : VoiceRegs} (h : x.playing = false) : x.GrainInv cfg :=
  fun _ hp _ => absurd (h.symm.trans hp) Bool.false_ne_true

theorem grainInv_of_unrecognised (cfg : Config) {x : VoiceRegs} (h : formatOf x.fmt = none) : x.GrainInv cfg :=
  fun _ _ hf => absurd (h.symm.trans hf) (by simp)

/-- A grain just started is at its frame number 0. -/
theorem startGrain_grainInv {cfg : Config} {f : Fmt} {n : Count} {st ln : Word}
    (hlen : 1 ≤ segmentLen cfg f n st ln) (b : WordAddr) (x : VoiceRegs) :
    (startGrain b f n (segmentStart cfg f n st) (segmentLen cfg f n st ln) x).GrainInv cfg := by
  intro f' _ hf'
  obtain rfl : f = f' := Option.some.inj ((formatOf_formatCode f).symm.trans hf')
  have hinside := segment_inside cfg f n st ln
  have hword : segmentStart cfg f n st / spw f * spw f ≤ segmentStart cfg f n st := Nat.div_mul_le_self _ _
  refine ⟨0, by simp, by simp, ?positive, ?start, ?file, ?rate, by simp⟩
  case positive => rwa [startGrain_segLen, segmentLen_toNat]
  case start => rw [startGrain_segStartW, segStartW_toNat]; exact Nat.le_add_right 1 _
  case file =>
    rw [startGrain_segStartW, segStartW_toNat, startGrain_segTotal, segmentLen_toNat, Nat.add_sub_cancel_left]
    exact (Nat.add_le_add_right hword _).trans hinside
  case rate => rw [startGrain_fadeRate, fadeRate_toNat, startGrain_segTotal, segmentLen_toNat]

/-! ### The grain a frame leaves (R133, R135) -/

/-- A frame that does not use up the segment takes the grain from frame number `k` to `k + 1`. -/
theorem endOfFrame_grainInv {cfg : Config} {m : List Host.Cell} {f : Fmt} {x : Voice} {frame : List Half}
    {r : VoiceRegs} (hwf : cfg.wf) (hinv : x.regs.GrainInv cfg) (hp : x.regs.playing = true)
    (hf : formatOf x.regs.fmt = some f)
    (hloop : frameLoop cfg m f (wordsPerFrame cfg f) x.regs = .ok (frame, r)) : (endOfFrame cfg f r).GrainInv cfg := by
  have hframe := frameEmitted_of_frameLoop hloop
  rcases Nat.lt_or_ge (nativesPerFrame cfg f) x.regs.segLen.toNat with hlt | hle
  · obtain ⟨-, -, hsegLen⟩ := hframe.continues hlt
    rw [Voice.respond_regs, Voice.emit_regs, Voice.withRegs_regs] at hsegLen
    obtain ⟨k, hcursor, hlen, hpos, hstart, hfile, hrate, hphase⟩ := hinv f hp hf
    intro f' _ hf'
    rw [endOfFrame_of_frameLoop hloop] at hf' ⊢
    dsimp only
    obtain rfl : f = f' := Option.some.inj (hf.symm.trans hf')
    refine ⟨k + 1, ?cursor, ?remaining, ?positive, hstart, hfile, hrate, ?phase⟩
    case cursor => rw [hcursor, Nat.succ_mul, Nat.add_assoc]
    case remaining => rw [hsegLen, Nat.succ_mul]; omega
    case positive => rw [hsegLen]; omega
    case phase =>
      rw [phaseAfter_toNat, hphase, wordsPerFrame_mul_opw hwf, Nat.succ_mul, Nat.add_mul]
      omega
  · obtain ⟨hidle, -, -⟩ := hframe.exhausted hle
    exact grainInv_of_idle cfg hidle

/-! ### The actions of a voice -/

/-- R36 of one voice, as `State.Inv` asks it of every voice. -/
def VoiceRegs.MeetsInv (cfg : Config) (x : VoiceRegs) : Prop := x.FlagsAgree ∧ x.GrainInv cfg

theorem meetsInv_of_idle (cfg : Config) {x : VoiceRegs} (hp : x.playing = false) (hb : x.busy = false) :
    x.MeetsInv cfg :=
  ⟨hb.trans hp.symm, grainInv_of_idle cfg hp⟩

theorem produceVoice_keeps_inv {cfg : Config} {m : List Host.Cell} {x y : Voice} (hwf : cfg.wf)
    (hx : x.regs.MeetsInv cfg) (h : produceVoice cfg m x = .ok y) : y.regs.MeetsInv cfg := by
  rcases produceVoice_ok h with ⟨-, rfl⟩ | ⟨-, -, rfl⟩ | ⟨f, frame, r, hp, hf, hloop, hy⟩
  · exact hx
  · exact meetsInv_of_idle cfg rfl rfl
  · obtain ⟨hflags, hgrain⟩ := hx
    have hframe := hy ▸ frameEmitted_of_frameLoop hloop
    refine ⟨?flags, hy ▸ endOfFrame_grainInv hwf hgrain hp hf hloop⟩
    rcases Nat.lt_or_ge (nativesPerFrame cfg f) x.regs.segLen.toNat with hlt | hle
    · obtain ⟨hplaying, hbusy, -⟩ := hframe.continues hlt
      exact hbusy.trans (hflags.trans hplaying.symm)
    · obtain ⟨hidle, hbusy, -⟩ := hframe.exhausted hle
      exact hbusy.trans hidle.symm

theorem assignVoice_keeps_inv {cfg : Config} {m : List Host.Cell} {v : Nat} {sample : Option WordAddr} {st ln : Word}
    {x y : Voice} (hx : x.regs.MeetsInv cfg) (h : assignVoice cfg m v sample st ln x = .ok y) :
    y.regs.MeetsInv cfg := by
  rcases assignVoice_outcome h with ⟨a, -, rfl⟩ | ⟨b, c, n, -, -, hc, rfl⟩ | ⟨b, f, n, -, -, hlen, rfl⟩
  · exact hx
  · exact ⟨rfl, grainInv_of_unrecognised cfg hc⟩
  · exact ⟨rfl, startGrain_grainInv hlen b x.regs⟩

theorem voiceAct_keeps_inv {cfg : Config} {m : List Host.Cell} {i : Instr} {x y : Voice} (hwf : cfg.wf)
    (hx : x.regs.MeetsInv cfg) (h : voiceAct cfg m i x = .ok y) : y.regs.MeetsInv cfg := by
  cases i with
  | decUlaw44 | decPcm44 | decUlaw22 | decPcm22 | decUlaw11 | decPcm11 | decUnrecognised | queryPos | queryLen
  | isPlaying | isBusy =>
    obtain rfl := Except.ok.inj h
    exact hx
  | assign v sample st ln => exact assignVoice_keeps_inv hx h
  | produce v => exact produceVoice_keeps_inv hwf hx h

/-! ### The machine -/

theorem exec_keeps_inv {i : Instr} {s t : State} (hs : s.Inv) (h : exec i s = .next t) : t.Inv := by
  obtain ⟨hwf, hmem, hcount, hvoices⟩ := hs
  obtain ⟨x, y, hx, hact, rfl⟩ := exec_next h
  refine ⟨hwf, hmem, by simpa using hcount, fun z hz => ?_⟩
  rcases List.mem_or_eq_of_mem_set hz with hz | rfl
  · exact hvoices z hz
  · exact voiceAct_keeps_inv hwf (hvoices x (List.mem_of_getElem? hx)) hact

/-- R180: the reset event idles every voice, and of each keeps what it has answered, emitted and logged. -/
theorem resetVoices_voice {l : List Voice} {k v : Nat} {y : Voice} (h : (resetVoices k l)[v]? = some y) :
    ∃ x, l[v]? = some x ∧ y.regs.playing = false ∧ y.regs.busy = false ∧ y.port.responses = x.port.responses ∧
      y.port.emitted = x.port.emitted ∧ y.port.faults = x.port.faults := by
  rw [resetVoices_getElem?] at h
  obtain ⟨x, hx, rfl⟩ := Option.map_eq_some_iff.mp h
  exact ⟨x, hx, rfl, rfl, rfl, rfl, rfl⟩

theorem applyReset_keeps_inv {s : State} (hs : s.Inv) : (applyReset s).Inv := by
  obtain ⟨hwf, hmem, hcount, -⟩ := hs
  refine ⟨hwf, hmem, hcount.trans_eq (resetVoices_length 0 s.voices).symm, fun y hy => ?_⟩
  obtain ⟨v, hv⟩ := List.mem_iff_getElem?.mp hy
  obtain ⟨-, -, hidle, hbusy, -⟩ := resetVoices_voice hv
  exact meetsInv_of_idle _ hidle hbusy

/-- Taking a request off its list changes nothing the invariant speaks of. -/
theorem withoutRequest_inv {s : State} (hs : s.Inv) (k : Nat) : (s.withoutRequest k).Inv := hs

/-- Settles O3: the reset event, a wait, and an instruction, which acts on one voice. -/
theorem stepKeepsTheInvariant : Obligations.StepKeepsTheInvariant := by
  intro s t hs h
  rcases step_next h with ⟨-, rfl⟩ | ⟨-, -, rfl⟩ | ⟨-, r, s', i, hnext, -, hexec⟩
  · exact applyReset_keeps_inv hs
  · exact hs
  · obtain ⟨-, rfl, -⟩ := nextRequest_some hnext
    exact exec_keeps_inv (withoutRequest_inv hs _) hexec

/-- A voice after power-on. -/
theorem mem_reset_voices {x : Voice} (h : x ∈ State.reset.voices) : x = Voice.reset :=
  List.eq_of_mem_replicate h

/-- Settles O1: the voices are one or more copies of `Voice.reset`. -/
theorem resetLeavesEveryVoiceIdle : Obligations.ResetLeavesEveryVoiceIdle := by
  refine ⟨by simp [State.reset], rfl, fun x hx => ?_⟩
  rw [mem_reset_voices hx]
  exact ⟨rfl, rfl, rfl, rfl, rfl⟩

/-- Settles O2: FRAME of the device is a multiple of 16, and no voice plays. -/
theorem resetMeetsTheInvariant : Obligations.ResetMeetsTheInvariant := by
  refine ⟨⟨?_, Nat.mul_mod_right _ _⟩, reset_mem_wf, by simp [State.reset], fun x hx => ?_⟩
  · exact Nat.le_mul_of_pos_right 16 (Nat.succ_pos _)
  · rw [mem_reset_voices hx]
    exact meetsInv_of_idle _ rfl rfl

end Sys2Proof.Machine

/-! SUPPORT. The rules of the whole machine: which request a step serves (20_memory.md R60), what an instruction does to
the voice it names and leaves alone elsewhere (60_exceptions.md R176), what may stop it (R163), what a finished run is
(70_reset_and_hazards.md R188). -/

namespace Sys2Proof.Machine

/-! ### Stepping (R3, R60, R180) -/

/-- The step that serves a request executes the instruction it decodes to. -/
theorem step_served {s s' : State} {r : Request} {i : Instr} (hreset : s.resetLine = false)
    (hnext : nextRequest s = some (r, s')) (hdecode : decode r = .ok i) : step s = exec i s' := by
  simp [step, hreset, hnext, hdecode]

/-- R60: of several requests outstanding, one that is drawn is served, and the turn is counted. -/
theorem nextRequest_drawn {s : State} {r : Request} (h : 2 ≤ s.outstanding.length)
    (hr : s.outstanding[Config.orderDraw s.turns % s.outstanding.length]? = some r) :
    nextRequest s = some (r, s.withoutRequest (Config.orderDraw s.turns % s.outstanding.length)) := by
  have hk : servedIndex s = Config.orderDraw s.turns % s.outstanding.length := if_neg (by omega)
  rw [nextRequest, hk, hr]
  rfl

theorem withoutRequest_of_control {s : State} {k : Nat} (h : 2 ≤ s.outstanding.length) (hk : k < s.control.length) :
    s.withoutRequest k = { s with control := s.control.eraseIdx k, turns := s.turns + 1 } := by
  rw [State.withoutRequest, if_pos hk, if_neg (by omega)]

theorem withoutRequest_of_production {s : State} {k : Nat} (h : 2 ≤ s.outstanding.length)
    (hk : s.control.length ≤ k) :
    s.withoutRequest k =
      { s with production := s.production.eraseIdx (k - s.control.length), turns := s.turns + 1 } := by
  rw [State.withoutRequest, if_neg (Nat.not_lt.mpr hk), if_neg (by omega), List.eraseIdx_of_length_le hk]

/-- Settles O4: a lone request is the one served; of several, the one drawn, found on its own path's list. -/
theorem stepRunsTheDecodedInstruction : Obligations.StepRunsTheDecodedInstruction := by
  intro s r i hreset hdecode
  refine ⟨fun hlone => ?lone, fun hmany => ?drawn⟩
  case lone =>
    have hout : s.outstanding = [r] := by
      rcases hlone with ⟨hc, hp⟩ | ⟨hc, hp⟩ <;> simp [State.outstanding, hc, hp]
    exact step_served hreset (nextRequest_single hout) hdecode
  case drawn =>
    intro k
    have hlength : s.outstanding.length = s.control.length + s.production.length := List.length_append
    rw [← hlength] at hmany
    have hstep (hr : s.outstanding[k]? = some r) : step s = exec i (s.withoutRequest k) := by
      simp only [k, ← hlength] at hr ⊢
      exact step_served hreset (nextRequest_drawn hmany hr) hdecode
    refine ⟨fun hr => ?control, fun hk hr => ?production⟩
    case control =>
      obtain ⟨hk, -⟩ := List.getElem?_eq_some_iff.mp hr
      rw [← withoutRequest_of_control hmany hk]
      exact hstep ((List.getElem?_append_left hk).trans hr)
    case production =>
      rw [← withoutRequest_of_production hmany hk]
      exact hstep ((List.getElem?_append_right hk).trans hr)

theorem step_waits {s : State} (hreset : s.resetLine = false) (hc : s.control = []) (hp : s.production = []) :
    step s = .next s := by
  have hnone : nextRequest s = none := (nextRequest_none_iff s).mpr (by simp [State.outstanding, hc, hp])
  simp [step, hreset, hnone]

/-- Settles O5: with nothing outstanding nothing is served. -/
theorem stepWaitsWithNothingOutstanding : Obligations.StepWaitsWithNothingOutstanding :=
  fun _ => step_waits

/-- Settles O6: the event is served before any request, and resets each voice in its place. -/
theorem resetEventIdlesEveryVoice : Obligations.ResetEventIdlesEveryVoice := by
  intro s hreset
  refine ⟨applyReset s, if_pos hreset, resetVoices_length 0 s.voices, rfl, rfl, rfl, rfl, rfl, fun v x y hx hy => ?_⟩
  obtain ⟨x', hx', hvoice⟩ := resetVoices_voice hy
  obtain rfl : x' = x := Option.some.inj (hx'.symm.trans hx)
  exact hvoice

/-! ### What an instruction does to its voice -/

/-- ASSIGN and PRODUCE apart, an instruction does nothing but answer. -/
theorem voiceAct_cases (cfg : Config) (m : List Host.Cell) (i : Instr) :
    (∃ v sample st ln, i = .assign v sample st ln) ∨ (∃ v, i = .produce v) ∨
    ∀ x, ∃ a, voiceAct cfg m i x = .ok (x.respond a) := by
  cases i with
  | decUlaw44 | decPcm44 | decUlaw22 | decPcm22 | decUlaw11 | decPcm11 | decUnrecognised | queryPos | queryLen
  | isPlaying | isBusy => exact .inr (.inr fun _ => ⟨_, rfl⟩)
  | assign => exact .inl ⟨_, _, _, _, rfl⟩
  | produce => exact .inr (.inl ⟨_, rfl⟩)

/-- R177: the histories of a voice after an instruction continue those before it. -/
def Port.Continues (p q : Port) : Prop :=
  p.responses <:+ q.responses ∧ p.emitted <:+ q.emitted ∧ p.faults <:+ q.faults

theorem Port.Continues.of_eq {p q : Port} (hr : q.responses = p.responses) (he : q.emitted = p.emitted)
    (hf : q.faults = p.faults) : p.Continues q :=
  ⟨hr ▸ List.suffix_rfl, he ▸ List.suffix_rfl, hf ▸ List.suffix_rfl⟩

theorem Voice.respond_continues (x : Voice) (a : Response) : x.port.Continues (x.respond a).port :=
  ⟨List.suffix_cons .., List.suffix_rfl, List.suffix_rfl⟩

theorem voiceAct_continues {cfg : Config} {m : List Host.Cell} {i : Instr} {x y : Voice}
    (h : voiceAct cfg m i x = .ok y) : x.port.Continues y.port := by
  rcases voiceAct_cases cfg m i with ⟨v, sample, st, ln, rfl⟩ | ⟨v, rfl⟩ | hanswers
  · rcases assignVoice_outcome h with ⟨a, -, rfl⟩ | ⟨b, c, n, -, -, -, rfl⟩ | ⟨b, f, n, -, -, -, rfl⟩
    · exact x.respond_continues _
    · exact x.respond_continues _
    · exact x.respond_continues _
  · rcases produceVoice_ok h with ⟨-, rfl⟩ | ⟨-, -, rfl⟩ | ⟨f, frame, r, -, -, -, rfl⟩
    · exact x.respond_continues _
    · exact ⟨List.suffix_cons .., List.suffix_rfl, List.suffix_cons ..⟩
    · exact ⟨List.suffix_cons .., List.suffix_cons .., List.suffix_rfl⟩
  · obtain ⟨a, ha⟩ := hanswers x
    obtain rfl : x.respond a = y := Except.ok.inj (ha.symm.trans h)
    exact x.respond_continues a

/-- Settles O8: the reset event keeps the histories, and an action of a voice adds in front of them. -/
theorem historiesOnlyGrow : Obligations.HistoriesOnlyGrow := by
  intro s t v x y h hx hy
  rcases step_next h with ⟨-, rfl⟩ | ⟨-, -, rfl⟩ | ⟨-, r, s', i, hnext, -, hexec⟩
  · obtain ⟨x', hx', -, -, hresponses, hemitted, hfaults⟩ := resetVoices_voice hy
    obtain rfl : x' = x := Option.some.inj (hx'.symm.trans hx)
    exact Port.Continues.of_eq hresponses hemitted hfaults
  · obtain rfl : x = y := Option.some.inj (hx.symm.trans hy)
    exact Port.Continues.of_eq rfl rfl rfl
  · obtain ⟨-, rfl, -⟩ := nextRequest_some hnext
    rcases exec_next_voice hexec hx hy with ⟨-, rfl⟩ | ⟨-, hact⟩
    · exact Port.Continues.of_eq rfl rfl rfl
    · exact voiceAct_continues hact

/-- An instruction that only answers leaves every voice's registers, frames and faults as they were. -/
theorem exec_answers {i : Instr} {s t : State} {v : Nat} {x y : Voice}
    (hanswers : ∀ x, ∃ a, voiceAct s.cfg s.mem i x = .ok (x.respond a)) (h : exec i s = .next t)
    (hx : s.voices[v]? = some x) (hy : t.voices[v]? = some y) :
    y.regs = x.regs ∧ y.port.emitted = x.port.emitted ∧ y.port.faults = x.port.faults := by
  rcases exec_next_voice h hx hy with ⟨-, rfl⟩ | ⟨-, hact⟩
  · exact ⟨rfl, rfl, rfl⟩
  · obtain ⟨a, ha⟩ := hanswers x
    obtain rfl : x.respond a = y := Except.ok.inj (ha.symm.trans hact)
    exact ⟨rfl, rfl, rfl⟩

theorem assignVoice_writes {cfg : Config} {m : List Host.Cell} {v : Nat} {sample : Option WordAddr} {st ln : Word}
    {x y : Voice} (h : assignVoice cfg m v sample st ln x = .ok y) :
    y.port.emitted = x.port.emitted ∧ y.port.faults = x.port.faults ∧ (y.regs.playing = false → y.regs = x.regs) := by
  rcases assignVoice_outcome h with ⟨a, -, rfl⟩ | ⟨b, c, n, -, -, -, rfl⟩ | ⟨b, f, n, -, -, -, rfl⟩
  · exact ⟨rfl, rfl, fun _ => rfl⟩
  · exact ⟨rfl, rfl, fun hidle => absurd hidle.symm Bool.false_ne_true⟩
  · exact ⟨rfl, rfl, fun hidle => absurd hidle.symm Bool.false_ne_true⟩

/-- Settles O52: every row but PRODUCE and ASSIGN only answers. -/
theorem registersEachInstructionMayWrite : Obligations.RegistersEachInstructionMayWrite := by
  intro s t v x y hx hy
  refine ⟨fun c n d _ h => ?header, fun h => ?queries,
    fun h => produceVoice_writes (exec_produce_next_voice h hx hy),
    fun sample st ln h => assignVoice_writes (exec_assign_next_voice h hx hy)⟩
  case header =>
    rcases h with h | h | h | h | h | h | h <;> exact exec_answers (fun _ => ⟨_, rfl⟩) h hx hy
  case queries =>
    rcases h with h | h | h | h <;> exact exec_answers (fun _ => ⟨_, rfl⟩) h hx hy

/-- R31, R32: two values of a voice's registers with the same grain, of which the second is no earlier in it. -/
def VoiceRegs.SameGrainFrom (x y : VoiceRegs) : Prop :=
  x.fadePos.toNat ≤ y.fadePos.toNat ∧ x.cursor ≤ y.cursor ∧ y.fadeRate = x.fadeRate ∧ y.fmt = x.fmt ∧
  y.base = x.base ∧ y.fileLen = x.fileLen ∧ y.segStartW = x.segStartW ∧ y.segTotal = x.segTotal

theorem VoiceRegs.SameGrainFrom.refl (x : VoiceRegs) : x.SameGrainFrom x :=
  ⟨le_rfl, le_rfl, rfl, rfl, rfl, rfl, rfl, rfl⟩

theorem voiceAct_sameGrain {cfg : Config} {m : List Host.Cell} {i : Instr} {x y : Voice}
    (hp : x.regs.playing = true) (h : voiceAct cfg m i x = .ok y) : x.regs.SameGrainFrom y.regs := by
  rcases voiceAct_cases cfg m i with ⟨v, sample, st, ln, rfl⟩ | ⟨v, rfl⟩ | hanswers
  · rcases assignVoice_outcome h with ⟨a, -, rfl⟩ | ⟨b, c, n, -, hidle, -⟩ | ⟨b, f, n, -, hidle, -⟩
    · exact .refl x.regs
    · exact absurd (hidle.symm.trans hp) Bool.false_ne_true
    · exact absurd (hidle.symm.trans hp) Bool.false_ne_true
  · obtain ⟨hcursor, hphase⟩ := produceVoice_advances h
    have hwrites := produceVoice_writes h
    refine ⟨hphase, hcursor, ?_, ?_, ?_, ?_, ?_, ?_⟩ <;> rw [hwrites]
  · obtain ⟨a, ha⟩ := hanswers x
    obtain rfl : x.respond a = y := Except.ok.inj (ha.symm.trans h)
    exact .refl x.regs

/-- Settles O54: ASSIGN rejects a Playing voice, and PRODUCE moves forwards within its grain. -/
theorem playingGrainKeepsItsParameters : Obligations.PlayingGrainKeepsItsParameters := by
  intro i s t v x y hexec hx hy hp
  rcases exec_next_voice hexec hx hy with ⟨-, rfl⟩ | ⟨-, hact⟩
  · exact VoiceRegs.SameGrainFrom.refl y.regs
  · exact voiceAct_sameGrain hp hact

/-! ### What an instruction leaves alone (R176) -/

theorem setVoice_getElem?_ne (s : State) {v w : Nat} (h : v ≠ w) (x : Voice) :
    (s.setVoice v x).voices[w]? = s.voices[w]? := by
  rw [setVoice_voices, List.getElem?_set_ne h]

theorem setVoice_comm (s : State) {v w : Nat} (h : v ≠ w) (x y : Voice) :
    (s.setVoice v x).setVoice w y = (s.setVoice w y).setVoice v x := by
  simp only [State.setVoice, List.set_comm _ _ h]

/-- Settles O51: one voice is replaced in its place, and no other part of the state. -/
theorem onlyTheNamedVoiceChanges : Obligations.OnlyTheNamedVoiceChanges := by
  intro i s t h
  obtain ⟨x, y, hx, -, rfl⟩ := exec_next h
  obtain ⟨hlt, -⟩ := List.getElem?_eq_some_iff.mp hx
  exact ⟨rfl, rfl, rfl, rfl, rfl, by simp, hlt, fun _ => rfl, fun v hv => setVoice_getElem?_ne s hv.symm y⟩

/-- Settles O55: each of the two acts on a voice that the other leaves alone, over one configuration and memory. -/
theorem differentVoicesCommute : Obligations.DifferentVoicesCommute := by
  intro i j s t u hne hi hj
  obtain ⟨x, x', hx, hactx, rfl⟩ := exec_next hi
  obtain ⟨y, y', hy, hacty, rfl⟩ := exec_next hj
  rw [setVoice_getElem?_ne s hne] at hy
  refine ⟨s.setVoice j.voice y', exec_of_voiceAct hy hacty, ?_⟩
  rw [setVoice_comm s hne]
  exact exec_of_voiceAct ((setVoice_getElem?_ne s hne.symm y').trans hx) hactx

/-- Settles O16: routing finds no voice. -/
theorem missingVoiceIsRefused : Obligations.MissingVoiceIsRefused := by
  intro i s h
  rw [exec_eq_onVoice, onVoice, List.getElem?_eq_none h]

/-! ### What may stop an instruction (R163) -/

theorem assignVoice_fault {cfg : Config} {m : List Host.Cell} {v : Nat} {sample : Option WordAddr} {st ln : Word}
    {x : Voice} {e : Fault} (h : assignVoice cfg m v sample st ln x = .error e) :
    ∃ b, sample = some b ∧ x.regs.playing = false ∧ wordAt m b = none ∧ e = .memFault b := by
  cases sample with
  | none => cases h
  | some b =>
    cases hp : x.regs.playing with
    | true => rw [assignVoice_busy hp] at h; cases h
    | false =>
      cases hword : wordAt m b with
      | some hdr => rw [assignVoice_idle hp hword] at h; cases h
      | none =>
        rw [assignVoice_missing hp hword] at h
        exact ⟨b, rfl, rfl, hword, (Except.error.inj h).symm⟩

theorem produceVoice_fault {cfg : Config} {m : List Host.Cell} {x : Voice} {e : Fault}
    (h : produceVoice cfg m x = .error e) :
    ∃ f k, x.regs.playing = true ∧ formatOf x.regs.fmt = some f ∧ k < wordsPerFrame cfg f ∧
      hasWords m x.regs.base (x.regs.cursor + k + 1) = false ∧
      e = .memFault (x.regs.base + (x.regs.cursor + k)) := by
  cases hp : x.regs.playing with
  | false => rw [produceVoice_idle cfg m hp] at h; cases h
  | true =>
    cases hf : formatOf x.regs.fmt with
    | none => rw [produceVoice_unrecognised cfg m hp hf] at h; cases h
    | some f =>
      cases hloop : frameLoop cfg m f (wordsPerFrame cfg f) x.regs with
      | ok result => rw [produceVoice_frame hp hf hloop] at h; cases h
      | error e' =>
        rw [produceVoice_error hp hf hloop] at h
        obtain ⟨k, hk, he', hmissing⟩ := frameLoop_error hloop
        exact ⟨f, k, rfl, rfl, hk, hmissing, (Except.error.inj h).symm.trans he'⟩

/-- Settles O56: the faults of the two instructions that read memory; the others answer. -/
theorem onlyMissingWordsStopAnInstruction : Obligations.OnlyMissingWordsStopAnInstruction := by
  intro i s x hx
  cases hact : voiceAct s.cfg s.mem i x with
  | ok y => exact .inl ⟨_, exec_of_voiceAct hx hact⟩
  | error e =>
    have hfault := exec_of_voiceAct_error hx hact
    rcases voiceAct_cases s.cfg s.mem i with ⟨v, sample, st, ln, rfl⟩ | ⟨v, rfl⟩ | hanswers
    · obtain ⟨b, rfl, hidle, hword, rfl⟩ := assignVoice_fault hact
      exact .inr (.inl ⟨v, b, st, ln, rfl, hidle, hword, hfault⟩)
    · obtain ⟨f, k, hp, hf, hk, hmissing, rfl⟩ := produceVoice_fault hact
      exact .inr (.inr ⟨v, f, k, rfl, hp, hf, hk, hmissing, hfault⟩)
    · obtain ⟨a, ha⟩ := hanswers x
      cases ha.symm.trans hact

/-! ### Finished runs (R188) -/

/-- R138: IS_PLAYING answers 0 exactly at an Idle voice. -/
theorem exec_isPlaying_false_iff {s : State} {v : Nat} {x : Voice} (hx : s.voices[v]? = some x) :
    exec (.isPlaying v) s = .next (s.setVoice v (x.respond (.bit false))) ↔ x.regs.playing = false := by
  rw [exec_isPlaying hx]
  refine ⟨fun h => ?_, fun h => by rw [h]⟩
  have hvoice := congrArg (fun t : State => t.voices[v]?) (Host.Outcome.next.inj h)
  simp only [setVoice_getElem?_self hx] at hvoice
  simpa [Voice.respond] using hvoice

theorem finishedGrains_iff (s : State) :
    s.FinishedGrains ↔ s.Finished ∧ ∀ (v : Nat) (x : Voice), s.voices[v]? = some x →
      exec (.isPlaying v) s = .next (s.setVoice v (x.respond (.bit false))) := by
  refine and_congr_right fun _ => ⟨fun h v x hx => ?_, fun h x hx => ?_⟩
  · exact (exec_isPlaying_false_iff hx).mpr (h x (List.mem_of_getElem? hx))
  · obtain ⟨v, hv⟩ := List.mem_iff_getElem?.mp hx
    exact (exec_isPlaying_false_iff hv).mp (h v x hv)

/-- A voice in the middle of a grain, nothing answered or logged yet. -/
def playingVoice : Voice := Voice.reset.withRegs (setFlags VoiceRegs.reset)

/-- The state after reset but for its voices: one, Playing. -/
def playingState : State := { State.reset with voices := [playingVoice] }

theorem playingState_finished : playingState.Finished :=
  ⟨rfl, rfl, fun _ hx => List.mem_singleton.mp hx ▸ rfl⟩

theorem reset_finishedGrains : State.reset.FinishedGrains :=
  ⟨⟨rfl, rfl, fun _ hx => mem_reset_voices hx ▸ rfl⟩, fun _ hx => mem_reset_voices hx ▸ rfl⟩

/-- Settles O59: a finished state waits; `playingState` is finished with its voice Playing. -/
theorem finishedRunsAreThoseThatAnswered : Obligations.FinishedRunsAreThoseThatAnswered :=
  ⟨fun _ hreset ⟨hc, hp, _⟩ => step_waits hreset hc hp, finishedGrains_iff,
    ⟨playingState, playingVoice, playingState_finished, List.mem_singleton.mpr rfl, rfl⟩, reset_finishedGrains⟩

end Sys2Proof.Machine

/-! SUPPORT. The decode operations presented alone (41_format_decoder.md R110 to R115, 30_encoding.md R74), and the one
decode that the frames of consecutive PRODUCEs add up to (R116). -/

namespace Sys2Proof.Machine

/-! ### A decode operation presented alone -/

/-- The row of a format answers the outputs and the prior of its decode operation. -/
theorem exec_ofFormat {s : State} {d : DecodeOperands} {x : Voice} (hx : s.voices[d.voice]? = some x) (f : Fmt)
    (n : Count) :
    exec (.ofFormat f n d) s = .next (s.setVoice d.voice (x.respond
      (.decoded (decodeOp s.cfg.ulawTable f d.word d.prior).1 (decodeOp s.cfg.ulawTable f d.word d.prior).2))) := by
  have hvoice : (Instr.ofFormat f n d).voice = d.voice := ofFormat_voice f n d
  have hact : voiceAct s.cfg s.mem (.ofFormat f n d) x = answerDecode (decodeOp s.cfg.ulawTable f d.word d.prior) x := by
    cases f <;> rfl
  rw [← hvoice] at hx ⊢
  exact exec_of_voiceAct hx hact

/-- Settles O18: at ratio 1 the outputs are the native samples themselves. -/
theorem decUlaw44Answers : Obligations.DecUlaw44Answers :=
  fun _ n d _ hx => ⟨decodeHeader_headerWord .ulaw44 n d, exec_ofFormat hx .ulaw44 n⟩

/-- Settles O19: at ratio 1 the outputs are the native samples themselves. -/
theorem decPcm44Answers : Obligations.DecPcm44Answers :=
  fun _ n d _ hx => ⟨decodeHeader_headerWord .pcm44 n d, exec_ofFormat hx .pcm44 n⟩

/-- Settles O20: the outputs are those of R112's pseudocode. -/
theorem decUlaw22Answers : Obligations.DecUlaw22Answers := by
  intro s n d x hx u s0 s1 s2 s3 s4
  obtain ⟨-, -, ⟨-, -, houts⟩, -⟩ := decodeOperationsFollowTheirPseudocode s.cfg.ulawTable d.word d.prior
  exact ⟨decodeHeader_headerWord .ulaw22 n d, _, houts, exec_ofFormat hx .ulaw22 n⟩

/-- Settles O21: the outputs are those of R113's pseudocode. -/
theorem decPcm22Answers : Obligations.DecPcm22Answers := by
  intro s n d x hx s0 s1 s2
  obtain ⟨-, -, -, ⟨-, -, houts⟩, -⟩ := decodeOperationsFollowTheirPseudocode s.cfg.ulawTable d.word d.prior
  exact ⟨decodeHeader_headerWord .pcm22 n d, _, houts, exec_ofFormat hx .pcm22 n⟩

/-- Settles O22: the outputs are those of R114's pseudocode. -/
theorem decUlaw11Answers : Obligations.DecUlaw11Answers := by
  intro s n d x hx u s0 s1 s2 s3 s4
  obtain ⟨-, -, -, -, ⟨-, -, houts⟩, -⟩ := decodeOperationsFollowTheirPseudocode s.cfg.ulawTable d.word d.prior
  exact ⟨decodeHeader_headerWord .ulaw11 n d, _, houts, exec_ofFormat hx .ulaw11 n⟩

/-- Settles O23: the outputs are those of R115's pseudocode. -/
theorem decPcm11Answers : Obligations.DecPcm11Answers := by
  intro s n d x hx s0 s1 s2
  obtain ⟨-, -, -, -, -, -, -, houts⟩ := decodeOperationsFollowTheirPseudocode s.cfg.ulawTable d.word d.prior
  exact ⟨decodeHeader_headerWord .pcm11 n d, _, houts, exec_ofFormat hx .pcm11 n⟩

/-- Settles O25: an unrecognised code is the catch-all's, whose action only answers. -/
theorem decUnrecognisedSelectsNoOperation : Obligations.DecUnrecognisedSelectsNoOperation :=
  fun _ c n d _ hx => ⟨fun hc => decodeHeader_headerWord_unrecognised hc n d,
    exec_of_voiceAct (i := .decUnrecognised c n d) hx rfl⟩

/-! ### One decode over many frames (R116) -/

/-- R116: the fold over payload words is INTERP over all their native samples. -/
theorem rawOutputs_eq_interpAll (u : Vector Half 256) (f : Fmt) (ws : List Word) (p : Half) :
    rawOutputs u f ws p = interpAll (rateOf f) (ws.flatMap (natives u (encodingOf f))) p := by
  induction ws generalizing p with
  | nil => rfl
  | cons w ws ih =>
    rw [rawOutputs, List.flatMap_cons, interpAll_append, ih]
    rfl

/-- The payload words `ws` stand at the cursor of the registers `x`. -/
structure WordsAt (m : List Host.Cell) (x : VoiceRegs) (ws : List Word) : Prop where
  exist : hasWords m x.base (x.cursor + ws.length) = true
  read : ∀ k < ws.length, wordAt m (x.base + (x.cursor + k)) = ws[k]?

theorem WordsAt.left {m : List Host.Cell} {x : VoiceRegs} {ws ws' : List Word} (h : WordsAt m x (ws ++ ws')) :
    WordsAt m x ws where
  exist := hasWords_of_le h.exist (by simp)
  read k hk := (h.read k (by simp; omega)).trans (List.getElem?_append_left hk)

/-- What is left at the cursor once it has passed the first words. -/
theorem WordsAt.right {m : List Host.Cell} {x y : VoiceRegs} {ws ws' : List Word} (h : WordsAt m x (ws ++ ws'))
    (hbase : y.base = x.base) (hcursor : y.cursor = x.cursor + ws.length) : WordsAt m y ws' where
  exist := by rw [hbase, hcursor, Nat.add_assoc, ← List.length_append]; exact h.exist
  read k hk := by
    rw [hbase, hcursor, Nat.add_assoc, h.read (ws.length + k) (by simp; omega), List.getElem?_append_right (by omega),
      Nat.add_sub_cancel_left]

/-- The samples of one decode of the words `ws` from the registers `x`, scaled at the running phase. -/
def VoiceRegs.samplesOf (cfg : Config) (f : Fmt) (x : VoiceRegs) (ws : List Word) : List Half :=
  scaledFrame cfg x.fadePos x.fadeRate (rawOutputs cfg.ulawTable f ws x.prior).1

/-- Voice `z` is voice `x` after `n` frames that are one decode of the words `ws`. -/
structure DecodedFrames (cfg : Config) (f : Fmt) (n : Nat) (ws : List Word) (x z : Voice) : Prop where
  frames : ∃ frames : List (List Half), frames.length = n ∧ z.port.emitted = frames ++ x.port.emitted ∧
    frames.reverse.flatten = x.regs.samplesOf cfg f ws
  prior : z.regs.prior = (rawOutputs cfg.ulawTable f ws x.regs.prior).2

/-- The voice after one frame over the words `ws`. -/
structure DecodedFrame (cfg : Config) (f : Fmt) (ws : List Word) (x y : Voice) : Prop where
  emits : FrameEmitted cfg f x y (x.regs.samplesOf cfg f ws)
  prior : y.regs.prior = (rawOutputs cfg.ulawTable f ws x.regs.prior).2
  fadeRate : y.regs.fadeRate = x.regs.fadeRate
  fadePos : y.regs.fadePos = phaseAfter x.regs.fadePos x.regs.fadeRate (ws.length * opw f)

/-- R133: a PRODUCE over words that stand at the cursor. -/
theorem exec_produce_words {s : State} {v : Nat} {f : Fmt} {x : Voice} {ws : List Word} (hx : s.voices[v]? = some x)
    (hp : x.regs.playing = true) (hf : formatOf x.regs.fmt = some f) (hlen : ws.length = wordsPerFrame s.cfg f)
    (hws : WordsAt s.mem x.regs ws) :
    ∃ y, exec (.produce v) s = .next (s.setVoice v y) ∧ DecodedFrame s.cfg f ws x y := by
  have hloop := frameLoop_eq s.cfg s.mem f ws x.regs hws.exist hws.read
  have hregs := endOfFrame_of_frameLoop hloop
  rw [hlen] at hloop
  refine ⟨_, exec_produce_ok hx (produceVoice_frame hp hf hloop), frameEmitted_of_frameLoop hloop, ?_, ?_, ?_⟩ <;>
    rw [Voice.respond_regs, Voice.emit_regs, Voice.withRegs_regs, ← hlen, hregs]

theorem decodedFrames_zero (cfg : Config) (f : Fmt) (x : Voice) : DecodedFrames cfg f 0 [] x x :=
  ⟨⟨[], rfl, rfl, rfl⟩, rfl⟩

/-- One frame, then those of the words after it. -/
theorem DecodedFrame.cons {cfg : Config} {f : Fmt} {n : Nat} {ws ws' : List Word} {x y z : Voice}
    (hframe : DecodedFrame cfg f ws x y) (hrest : DecodedFrames cfg f n ws' y z) :
    DecodedFrames cfg f (n + 1) (ws ++ ws') x z := by
  obtain ⟨⟨frames, hcount, hemitted, hflatten⟩, hprior⟩ := hrest
  rw [VoiceRegs.samplesOf, hframe.prior, hframe.fadeRate, hframe.fadePos] at hflatten
  refine ⟨⟨frames ++ [x.regs.samplesOf cfg f ws], ?count, ?emitted, ?flatten⟩, ?prior⟩
  case count => rw [List.length_append, hcount, List.length_singleton]
  case emitted => rw [hemitted, hframe.emits.emitted, List.append_assoc, List.singleton_append]
  case flatten =>
    rw [List.reverse_append, List.reverse_singleton, List.singleton_append, List.flatten_cons, hflatten,
      VoiceRegs.samplesOf, VoiceRegs.samplesOf, rawOutputs_append, scaledFrame_append, rawOutputs_length]
  case prior => rw [hprior, hframe.prior, rawOutputs_append]

/-- R116, by induction on the frames: each one but the last leaves the voice Playing for the next. -/
theorem produceTimes_words {s : State} {v n : Nat} {f : Fmt} {x : Voice} {ws : List Word}
    (hx : s.voices[v]? = some x) (hf : formatOf x.regs.fmt = some f)
    (hplays : 0 < n → x.regs.playing = true ∧ (n - 1) * nativesPerFrame s.cfg f < x.regs.segLen.toNat)
    (hlen : ws.length = n * wordsPerFrame s.cfg f) (hws : WordsAt s.mem x.regs ws) :
    ∃ t z, produceTimes v n s = .next t ∧ t.voices[v]? = some z ∧ DecodedFrames s.cfg f n ws x z := by
  induction n generalizing s x ws with
  | zero =>
    obtain rfl : ws = [] := List.length_eq_zero_iff.mp (hlen.trans (Nat.zero_mul _))
    exact ⟨s, x, rfl, hx, decodedFrames_zero s.cfg f x⟩
  | succ n ih =>
    obtain ⟨hp, hsegLen⟩ := hplays (Nat.succ_pos n)
    rw [Nat.succ_mul] at hlen
    obtain ⟨first, rest, rfl, hfirst⟩ : ∃ first rest, ws = first ++ rest ∧ first.length = wordsPerFrame s.cfg f :=
      ⟨_, _, (List.take_append_drop (wordsPerFrame s.cfg f) ws).symm, by rw [List.length_take]; omega⟩
    obtain ⟨y, hexec, hframe⟩ := exec_produce_words hx hp hf hfirst hws.left
    have hcontinues (hn : 0 < n) :
        y.regs.playing = true ∧ (n - 1) * nativesPerFrame s.cfg f < y.regs.segLen.toNat := by
      obtain ⟨k, rfl⟩ := Nat.exists_eq_succ_of_ne_zero hn.ne'
      rw [Nat.succ_sub_one, Nat.succ_mul] at hsegLen
      obtain ⟨hplaying, -, hremaining⟩ := hframe.emits.continues (by omega)
      exact ⟨hplaying.trans hp, by rw [hremaining, Nat.succ_sub_one]; omega⟩
    obtain ⟨t, z, hrun, hz, hframes⟩ := ih (s := s.setVoice v y) (setVoice_getElem?_self hx y)
      (hframe.emits.fmt ▸ hf) hcontinues (by rw [List.length_append] at hlen; simp; omega)
      (hws.right hframe.emits.base (hframe.emits.cursor.trans (by rw [hfirst])))
    exact ⟨t, z, (produceTimes_succ hexec n).trans hrun, hz, hframe.cons hframes⟩

/-- Settles O28: the frames by induction, and the words of them all as one list of native samples. -/
theorem decodingCarriesAcrossFrames : Obligations.DecodingCarriesAcrossFrames := by
  intro s v x f n ws _ hx hp hf hlen hsegLen hwords hread raw
  obtain ⟨t, z, hrun, hz, ⟨frames, hcount, hemitted, hflatten⟩, hprior⟩ :=
    produceTimes_words hx hf (fun _ => ⟨hp, hsegLen⟩) hlen ⟨hwords, hread⟩
  exact ⟨rawOutputs_eq_interpAll _ f ws _, t, z, frames, hrun, hz, hcount, hemitted, hflatten, hprior⟩

end Sys2Proof.Machine

/-! SUPPORT. The sample memory (20_memory.md R52, R57, R58): what the platform places reads back, and which words a PRODUCE
depends on. -/

namespace Sys2Proof.Machine

/-! ### A word placed (R52) -/

theorem byteAt_writeByte (m : List Host.Cell) (a c : Nat) (b : Byte) :
    byteAt (writeByte m a b) c = if c = a then some b else byteAt m c := by
  split
  next h => rw [h, byteAt_writeByte_same]
  next h => exact byteAt_writeByte_other m b h

/-- The bytes after a word is placed: the last one written is asked for first. -/
theorem byteAt_writeWord (m : List Host.Cell) (a c : Nat) (w : Word) :
    byteAt (writeWord m a w) c =
      if c = 4 * a + 3 then some (w.extractLsb' 24 8) else
      if c = 4 * a + 2 then some (w.extractLsb' 16 8) else
      if c = 4 * a + 1 then some (w.extractLsb' 8 8) else
      if c = 4 * a then some (w.extractLsb' 0 8) else byteAt m c := by
  simp only [writeWord, byteAt_writeByte]

theorem wordAt_of_bytes {m : List Host.Cell} {a : WordAddr} {b0 b1 b2 b3 : Byte} (h0 : byteAt m (4 * a) = some b0)
    (h1 : byteAt m (4 * a + 1) = some b1) (h2 : byteAt m (4 * a + 2) = some b2)
    (h3 : byteAt m (4 * a + 3) = some b3) : wordAt m a = some (wordOfBytes b0 b1 b2 b3) := by
  simp only [wordAt, h0, h1, h2, h3]
  rfl

theorem wordAt_writeWord_same (m : List Host.Cell) (a : WordAddr) (w : Word) :
    wordAt (writeWord m a w) a = some w := by
  have h := wordAt_of_bytes (m := writeWord m a w) (a := a) (b0 := w.extractLsb' 0 8) (b1 := w.extractLsb' 8 8)
    (b2 := w.extractLsb' 16 8) (b3 := w.extractLsb' 24 8) (by simp [byteAt_writeWord]) (by simp [byteAt_writeWord])
    (by simp [byteAt_writeWord]) (by simp [byteAt_writeWord])
  rw [h, wordOfBytes_extract]

theorem byteAt_writeWord_other (m : List Host.Cell) {a c : Nat} (w : Word) (h : c / 4 ≠ a) :
    byteAt (writeWord m a w) c = byteAt m c := by
  rw [byteAt_writeWord, if_neg (by omega), if_neg (by omega), if_neg (by omega), if_neg (by omega)]

theorem wordAt_writeWord_other (m : List Host.Cell) {a b : Nat} (w : Word) (h : b ≠ a) :
    wordAt (writeWord m a w) b = wordAt m b := by
  have hbyte (k : Nat) (hk : k < 4) : byteAt (writeWord m a w) (4 * b + k) = byteAt m (4 * b + k) :=
    byteAt_writeWord_other m w (by omega)
  have hlow : byteAt (writeWord m a w) (4 * b) = byteAt m (4 * b) := hbyte 0 (by decide)
  rw [wordAt, wordAt, hlow, hbyte 1 (by decide), hbyte 2 (by decide), hbyte 3 (by decide)]

/-- Settles O57: the four bytes lie at their own addresses, and each of another word's at none of them. -/
theorem placedWordsReadBack : Obligations.PlacedWordsReadBack := fun m a w =>
  ⟨wordAt_writeWord_same m a w, by simp [byteAt_writeWord], by simp [byteAt_writeWord],
    fun _ h => wordAt_writeWord_other m w h⟩

/-! ### The words a PRODUCE depends on (R57, R58) -/

/-- Two memories hold the same words at the offsets below `n` from `base`. -/
def SameWordsBelow (m m' : List Host.Cell) (base n : Nat) : Prop :=
  ∀ off < n, wordAt m (base + off) = wordAt m' (base + off)

theorem SameWordsBelow.hasWords_eq {m m' : List Host.Cell} {base n : Nat} (h : SameWordsBelow m m' base n) :
    hasWords m base n = hasWords m' base n := by
  rw [Bool.eq_iff_iff, hasWords_iff, hasWords_iff]
  exact forall₂_congr fun k hk => by rw [h k hk]

theorem SameWordsBelow.memRead_eq {m m' : List Host.Cell} {base n off : Nat} (h : SameWordsBelow m m' base n)
    (hoff : off < n) : memRead m base off = memRead m' base off := by
  have hbelow : SameWordsBelow m m' base off := fun k hk => h k (hk.trans hoff)
  rw [memRead, memRead, hbelow.hasWords_eq, h off hoff]

/-- The loop of PRODUCE reads the words it passes, and no other. -/
theorem SameWordsBelow.frameLoop_eq {m m' : List Host.Cell} {bound n : Nat} {x : VoiceRegs}
    (h : SameWordsBelow m m' x.base bound) (hbound : x.cursor + n ≤ bound) (cfg : Config) (f : Fmt) :
    frameLoop cfg m f n x = frameLoop cfg m' f n x := by
  induction n generalizing x with
  | zero => rfl
  | succ n ih =>
    have hrest (w : Word) := ih (x := afterWord cfg f w x) h (by rw [afterWord_cursor]; omega)
    simp only [frameLoop, h.memRead_eq (off := x.cursor) (by omega), hrest]

/-- Over memories with the same words below the bound, a PRODUCE whose frame lies below it does the same. -/
theorem SameWordsBelow.produceVoice_eq {m m' : List Host.Cell} {bound : Nat} {x : Voice} {cfg : Config} {f : Fmt}
    (h : SameWordsBelow m m' x.regs.base bound) (hf : formatOf x.regs.fmt = some f)
    (hbound : x.regs.cursor + wordsPerFrame cfg f ≤ bound) : produceVoice cfg m x = produceVoice cfg m' x := by
  simp only [produceVoice, hf, h.frameLoop_eq hbound]

/-- R141: a grain that has native samples left after `k` frames has more than `k` of them. -/
theorem lt_framesOfGrain {cfg : Config} {f : Fmt} {k len : Nat} (hc : 0 < nativesPerFrame cfg f)
    (h : k * nativesPerFrame cfg f < len) : k < framesOfGrain cfg f len := by
  rw [framesOfGrain, Nat.lt_iff_add_one_le, Nat.le_div_iff_mul_le hc, Nat.succ_mul]
  omega

theorem nativesPerFrame_div_spw {cfg : Config} (hwf : cfg.wf) (f : Fmt) :
    nativesPerFrame cfg f / spw f = wordsPerFrame cfg f := by
  have hspw : 0 < spw f := by cases f <;> decide
  rw [← wordsPerFrame_mul_spw hwf f, Nat.mul_div_cancel _ hspw]

/-- R58: under the invariant the next frame lies below the end of the grain's last frame. -/
theorem cursor_le_overrun {cfg : Config} {f : Fmt} {x : VoiceRegs} (hwf : cfg.wf) (hinv : x.GrainInv cfg)
    (hp : x.playing = true) (hf : formatOf x.fmt = some f) :
    x.cursor + wordsPerFrame cfg f ≤
      x.segStartW.toNat + framesOfGrain cfg f x.segTotal.toNat * (nativesPerFrame cfg f / spw f) := by
  obtain ⟨k, hcursor, hlen, hpos, -⟩ := hinv f hp hf
  have hk : k < framesOfGrain cfg f x.segTotal.toNat := lt_framesOfGrain (nativesPerFrame_pos hwf f) (by omega)
  calc x.cursor + wordsPerFrame cfg f = x.segStartW.toNat + (k + 1) * wordsPerFrame cfg f := by
        rw [hcursor, Nat.succ_mul, Nat.add_assoc]
    _ ≤ x.segStartW.toNat + framesOfGrain cfg f x.segTotal.toNat * wordsPerFrame cfg f := by gcongr; exact hk
    _ = _ := by rw [nativesPerFrame_div_spw hwf]

/-- R27: the bound of the cursor. A word holds two native samples or more, and all but those of the last frame lie inside
the file. -/
theorem cursor_le_file {cfg : Config} {f : Fmt} {x : VoiceRegs} (hwf : cfg.wf) (hinv : x.GrainInv cfg)
    (hp : x.playing = true) (hf : formatOf x.fmt = some f) :
    x.cursor + wordsPerFrame cfg f ≤ 1 + (x.fileLen.toNat + cfg.frame) / 2 := by
  obtain ⟨k, hcursor, hlen, hpos, hstart, hfile, -⟩ := hinv f hp hf
  have hspw : 2 ≤ spw f := by cases f <;> decide
  have hframe : nativesPerFrame cfg f ≤ cfg.frame := Nat.div_le_self _ _
  have hwords : (x.segStartW.toNat - 1 + k * wordsPerFrame cfg f + wordsPerFrame cfg f) * 2 ≤
      x.fileLen.toNat + cfg.frame := by
    calc (x.segStartW.toNat - 1 + k * wordsPerFrame cfg f + wordsPerFrame cfg f) * 2
        ≤ (x.segStartW.toNat - 1 + k * wordsPerFrame cfg f + wordsPerFrame cfg f) * spw f :=
          Nat.mul_le_mul_left _ hspw
      _ = (x.segStartW.toNat - 1) * spw f + k * nativesPerFrame cfg f + nativesPerFrame cfg f := by
          rw [← wordsPerFrame_mul_spw hwf f]; ring
      _ ≤ x.fileLen.toNat + cfg.frame := by omega
  omega

/-- Settles O45: the bounds by the number of frames played; the loop of PRODUCE reads below the first of them. -/
theorem readsStayWithinTheOverrun : Obligations.ReadsStayWithinTheOverrun := by
  intro s v x f hinv hx hp hf next bound
  obtain ⟨hwf, -, -, hvoices⟩ := hinv
  obtain ⟨-, hgrain⟩ := hvoices x (List.mem_of_getElem? hx)
  have hbound : x.regs.cursor + wordsPerFrame s.cfg f ≤ bound := cursor_le_overrun hwf hgrain hp hf
  obtain ⟨k, -, hlen, hpos, -, hfile, hrate, -⟩ := hgrain f hp hf
  refine ⟨hbound, cursor_le_file hwf hgrain hp hf, ?rate, by omega, by omega, fun hwords m hm => ?same⟩
  case rate => exact hrate ▸ le_fadeRate (by omega) x.regs.segTotal.isLt
  case same =>
    obtain ⟨frame, r, hloop⟩ := frameLoop_total s.cfg s.mem f (wordsPerFrame s.cfg f) x.regs
      (hasWords_of_le hwords hbound)
    have hact := produceVoice_frame hp hf hloop
    have hsame : produceVoice s.cfg m x = produceVoice s.cfg s.mem x :=
      SameWordsBelow.produceVoice_eq hm hf hbound
    exact ⟨_, exec_produce_ok hx hact, exec_produce_ok (s := { s with mem := m }) hx (hsame.trans hact)⟩

end Sys2Proof.Machine

/-! SUPPORT. The envelope of a whole segment (40_fade_table.md R90, R97, R98; 42_voice_player.md R142) and the conversion
constants (00_scope.md R11, 30_encoding.md R77). -/

namespace Sys2Proof.Machine

/-! ### The low bits of a phase (R90) -/

theorem clearLow_toNat (p : Word) : (p &&& 0xFFFFFF00#32).toNat = p.toNat / 2 ^ 8 * 2 ^ 8 := by
  have hclear : p &&& 0xFFFFFF00#32 = p >>> 8 <<< 8 := by
    apply BitVec.eq_of_getLsbD_eq
    intro i hi
    interval_cases i <;> simp
  rw [hclear, BitVec.toNat_shiftLeft, BitVec.toNat_ushiftRight, Nat.shiftRight_eq_div_pow, Nat.shiftLeft_eq]
  omega

/-- A phase enters FADE_LOOKUP by its segment index and its fraction only. -/
theorem fadeLookup_congr (t : Vector Half 257) {p q : Word} (hindex : segmentIndex p = segmentIndex q)
    (hfraction : fraction p = fraction q) : fadeLookup t p = fadeLookup t q := by
  rw [fadeLookup, fadeLookup, hindex, hfraction]

theorem fadeLookup_of_fraction_zero (t : Vector Half 257) {p : Word} (h : fraction p = 0) :
    fadeLookup t p = fadeEntry t (segmentIndex p).castSucc := by
  rw [fadeLookup_eq, h, Nat.cast_zero, Int.mul_zero, asr, Int.zero_ediv, Int.add_zero]

/-- Settles O30: index and fraction are quotients of the phase, so its low eight bits enter neither. -/
theorem fadeLookupFieldsAreTheirBits : Obligations.FadeLookupFieldsAreTheirBits := by
  intro t p
  refine ⟨segmentIndex_val p, fraction_eq p, fadeLookup_congr t (Fin.ext ?_) ?_, fadeLookup_of_fraction_zero t⟩
  · rw [segmentIndex_val, segmentIndex_val, clearLow_toNat]
    omega
  · rw [fraction_eq, fraction_eq, clearLow_toNat]
    omega

/-! ### The phase over a segment (R97, R98, R142) -/

/-- R97: the phase at output sample `n` of a segment of `len` native samples. -/
theorem segmentPhase_toNat (len n : Nat) :
    (phaseAfter 0#32 (BitVec.ofNat 32 (0xFFFFFFFF / len)) n).toNat = min (n * (0xFFFFFFFF / len)) 0xFFFFFFFF := by
  rw [phaseAfter_toNat, fadeRate_toNat, BitVec.toNat_ofNat, Nat.zero_mod, Nat.zero_add]

/-- R97: within the segment's length the phase does not saturate. -/
theorem segmentPhase_of_le {len n : Nat} (h : n ≤ len) :
    (phaseAfter 0#32 (BitVec.ofNat 32 (0xFFFFFFFF / len)) n).toNat = n * (0xFFFFFFFF / len) := by
  have hle : n * (0xFFFFFFFF / len) ≤ 0xFFFFFFFF := (Nat.mul_le_mul_right _ h).trans (Nat.mul_div_le _ _)
  rw [segmentPhase_toNat, min_eq_left hle]

theorem segmentPhase_saturated {len n : Nat} (h : 0xFFFFFFFF ≤ n * (0xFFFFFFFF / len)) :
    phaseAfter 0#32 (BitVec.ofNat 32 (0xFFFFFFFF / len)) n = 0xFFFFFFFF#32 := by
  apply BitVec.eq_of_toNat_eq
  rw [segmentPhase_toNat, min_eq_right h]
  rfl

/-- The remainder of the maximal phase by a segment's length. -/
theorem segment_remainder {len : Nat} (hlen : 1 ≤ len) :
    0xFFFFFFFF < len * (0xFFFFFFFF / len) + len := Nat.lt_mul_div_succ 0xFFFFFFFF hlen

/-- R98: half way through a segment of three native samples or more the phase is in the plateau of every PLATEAU_LO up to
85, and below the table's middle. -/
theorem midpoint_in_plateau {len : Nat} (hlen : 3 ≤ len) (hlt : len < 2 ^ 24) :
    85 * 2 ^ 24 ≤ len / 2 * (0xFFFFFFFF / len) ∧ len / 2 * (0xFFFFFFFF / len) < 128 * 2 ^ 24 := by
  have hrem := segment_remainder (len := len) (by omega)
  have hmul : len * (0xFFFFFFFF / len) ≤ 0xFFFFFFFF := Nat.mul_div_le _ _
  have hlow : len * (0xFFFFFFFF / len) ≤ 3 * (len / 2) * (0xFFFFFFFF / len) := Nat.mul_le_mul_right _ (by omega)
  have hhigh : 2 * (len / 2) * (0xFFFFFFFF / len) ≤ len * (0xFFFFFFFF / len) :=
    Nat.mul_le_mul_right _ (Nat.mul_div_le _ _)
  rw [Nat.mul_assoc] at hlow hhigh
  omega

/-- Two equal entries give their own value at every fraction between them. -/
theorem fadeLookup_of_flat {t : Vector Half 257} {p : Word} {a : Int}
    (h : fadeEntry t (segmentIndex p).castSucc = a) (h' : fadeEntry t (segmentIndex p).succ = a) :
    fadeLookup t p = a := by
  rw [fadeLookup_eq, h, h', Int.sub_self, Int.zero_mul, asr, Int.zero_ediv, Int.add_zero]

/-- R92, R98: in the plateau below the table's middle the amplitude is full scale. -/
theorem fadeLookup_in_plateau {cfg : Config} {lo : Nat} {p : Word} (h : cfg.FtPlateau lo) (hlo : lo ≤ 85)
    (hlow : lo * 2 ^ 24 ≤ p.toNat) (hhigh : p.toNat < 128 * 2 ^ 24) :
    fadeLookup cfg.fadeTable p = cfg.fullScale.toInt := by
  have hindex := segmentIndex_val p
  have hentry (i : Fin 257) (hi : lo ≤ i.val) (hi' : i.val ≤ 256 - lo) :
      fadeEntry cfg.fadeTable i = cfg.fullScale.toInt := congrArg BitVec.toInt (h i hi hi')
  refine fadeLookup_of_flat (hentry _ ?_ ?_) (hentry _ ?_ ?_) <;>
    simp only [Fin.val_castSucc, Fin.val_succ] <;> omega

/-- Settles O35: the sample half way through the segment is the one asked for. -/
theorem plateauIsReachedBeforeTheMidpoint : Obligations.PlateauIsReachedBeforeTheMidpoint := by
  intro cfg len lo hlen hlt rate
  refine ⟨fun n hn => segmentPhase_of_le hn, fun hone n hn => ?one, fun hthree hlo => ⟨len / 2, ?plateau⟩⟩
  case one =>
    subst hone
    exact segmentPhase_saturated (Nat.le_mul_of_pos_left _ hn)
  case plateau =>
    have hphase : (phaseAfter 0#32 rate (len / 2)).toNat = len / 2 * (0xFFFFFFFF / len) :=
      segmentPhase_of_le (Nat.div_le_self len 2)
    obtain ⟨hlow, hhigh⟩ := midpoint_in_plateau hthree hlt
    rw [← hphase] at hlow hhigh
    have hlo' : lo * 2 ^ 24 ≤ (phaseAfter 0#32 rate (len / 2)).toNat := (Nat.mul_le_mul_right _ hlo).trans hlow
    exact ⟨Nat.mul_div_le len 2, hlo', by omega, fun h => fadeLookup_in_plateau h hlo hlo' hhigh⟩

/-- R142: what the floor of the rate loses over a segment is less than one phase step in 256 samples. -/
theorem envelope_over {len n : Nat} (hlen : 1 ≤ len) (hlt : len < 2 ^ 24) (hn : len + len / 256 + 1 ≤ n) :
    0xFFFFFFFF ≤ n * (0xFFFFFFFF / len) := by
  have hrem := segment_remainder hlen
  have hrate := le_fadeRate hlen hlt
  calc 0xFFFFFFFF ≤ len * (0xFFFFFFFF / len) + (len / 256 + 1) * 0x100 := by omega
    _ ≤ len * (0xFFFFFFFF / len) + (len / 256 + 1) * (0xFFFFFFFF / len) := by gcongr
    _ = (len + len / 256 + 1) * (0xFFFFFFFF / len) := by ring
    _ ≤ n * (0xFFFFFFFF / len) := by gcongr

/-- R142: at the maximal phase the last segment of the table has fallen to its end, 0. -/
theorem fadeLookup_at_end {cfg : Config} (hrange : cfg.FtRange) (hends : cfg.FtEnds) :
    fadeLookup cfg.fadeTable 0xFFFFFFFF#32 = 0 := by
  obtain ⟨-, hlast⟩ := hends
  have hindex : segmentIndex 0xFFFFFFFF#32 = 255 := by decide
  have hfraction : fraction 0xFFFFFFFF#32 = 65535 := by decide
  have hend : fadeEntry cfg.fadeTable (segmentIndex 0xFFFFFFFF#32).succ = 0 := by rw [hindex]; exact hlast
  obtain ⟨hstart, -⟩ := hrange (segmentIndex 0xFFFFFFFF#32).castSucc
  rcases hstart.eq_or_lt with hflat | hfall
  · exact fadeLookup_of_flat hflat.symm hend
  · rw [fadeLookup_of_falling_largest_fraction (hend.trans_lt hfall) hfraction, hend]

theorem envApply_amp_zero (shift : Nat) (s : Half) : envApply shift s 0 = 0#16 := by
  simp [envApply, asr, trunc16]

/-- Settles O36: from that sample on the phase is the maximum, where the amplitude is 0. -/
theorem envelopeEndsBeforeAnInterpolatedGrain : Obligations.EnvelopeEndsBeforeAnInterpolatedGrain := by
  intro cfg len n s hlen hlt hn
  have hphase := segmentPhase_saturated (envelope_over hlen hlt hn)
  refine ⟨hphase, fun hrange hends => ?silent, fun f hratio htwo => ?before⟩
  case silent => rw [hphase, fadeLookup_at_end hrange hends, envApply_amp_zero]
  case before =>
    calc len + len / 256 + 1 < 2 * len := by omega
      _ ≤ ratio f * len := Nat.mul_le_mul_right len hratio

/-! ### Conversion constants (R11, R77) -/

/-- R77: the response to a count is the low 32 bits of the scaled count. -/
theorem nativeToMs_natCast (cfg : Config) (f : Fmt) (n : Nat) :
    nativeToMs cfg f n = BitVec.ofNat 32 (n * constOf cfg.kS2M (rateOf f) / 2 ^ 32) := by
  rw [nativeToMs, asr, ← BitVec.ofInt_natCast]
  push_cast
  rfl

/-- R11: each constant is below `2 ^ 29`, so a count of 32 bits fits. -/
theorem scaled_count_lt (f : Fmt) {n : Nat} (hn : n < 2 ^ 32) :
    n * constOf defaultS2M (rateOf f) / 2 ^ 32 < 2 ^ 32 := by
  have hconst : constOf defaultS2M (rateOf f) < 2 ^ 29 := by cases f <;> decide
  have hprod : n * constOf defaultS2M (rateOf f) < 2 ^ 32 * 2 ^ 29 := Nat.mul_lt_mul'' hn hconst
  omega

/-- Settles O48: with the default constants nothing is cut off; the queries of a Playing voice answer `nativeToMs`. -/
theorem scaledTimesFitTheResponse : Obligations.ScaledTimesFitTheResponse := by
  refine ⟨fun cfg f n hk hn => ?fits, fun s v x f hx hp hf => ⟨?position, ?length⟩⟩
  case fits => rw [nativeToMs_natCast, hk, BitVec.toNat_ofNat, Nat.mod_eq_of_lt (scaled_count_lt f hn)]
  case position => rw [exec_queryPos hx, positionMs_playing s.cfg hp hf]; rfl
  case length => rw [exec_queryLen hx, lengthMs_playing s.cfg hp hf]; rfl

/-- Settles O58: the six constants, computed; reset has them. -/
theorem defaultConstantsAreTheFloors : Obligations.DefaultConstantsAreTheFloors := by
  intro r
  cases r <;> exact ⟨by decide, by decide, rfl, rfl⟩

end Sys2Proof.Machine
